-- ==== Sys2Proof/Word.lean ====
section
/-! DEFINITION. The bit widths of the machine (00_scope.md R6, R8, R9; 10_state.md R26). -/

namespace Sys2Proof

/-- A word: a register, a memory cell, an instruction (R6 `WORD_BITS` = 16, R8: unsigned). -/
abbrev Word := BitVec 16

/-- The opcode field `w[15:12]` (R6 `OPCODE_BITS` = 4). -/
abbrev Opcode := BitVec 4

/-- The data field `w[11:0]` (R6 `DATA_BITS` = 12). -/
abbrev DataField := BitVec 12

/-- An instruction pointer: 13 bits, so that 4095 + 1 is 4096 and does not wrap (R26, D6). -/
abbrev Pointer := BitVec 13

end Sys2Proof
end

