-- ==== Sys2Proof/Config.lean ====
section
/-! DEFINITION. The parameters of the implementation (00_scope.md R6, R7). No parameter is a free
value: the spec leaves no instruction's result open (30_encoding.md R100). The registers' reset
values, which R7 leaves OPEN, are the arguments of `Machine.State.resetWith`. -/

namespace Sys2Proof

/-- `MEM_WORDS`: the number of memory cells (R6, 20_memory.md R60). -/
abbrev Config.memWords : Nat := 4096

/-- `ENTRY`: the address of the first instruction executed (R6, 70_reset_and_hazards.md R262). -/
def Config.entry : Pointer := 0#13

/-- `LOAD_BASE`: the address a program is loaded at (R6, R261). -/
def Config.loadBase : Nat := 0

/-- `REG_RESET_A`, as `State.reset` takes it. DESIGN CHOICE, unsafe (entry 3): R40 gives no value.
Statements about reset quantify over it instead (`State.resetWith`). -/
def Config.regResetA : Word := 0#16

/-- `REG_RESET_B`, as `State.reset` takes it. DESIGN CHOICE, unsafe (entry 3). -/
def Config.regResetB : Word := 0#16

/-- `REG_RESET_C`, as `State.reset` takes it. DESIGN CHOICE, unsafe (entry 3). -/
def Config.regResetC : Word := 0#16

/-- `SFT_SEL_POLARITY`: the value of data bit 0 of a shift that selects B. DESIGN CHOICE of the spec
(D15), unsafe if wrong (entry 12). -/
def Config.sftSelPolarity : Bool := false

/-- `SFT_DIR_POLARITY`: the value of data bit 1 of a shift that shifts left. DESIGN CHOICE of the
spec (D16), unsafe if wrong (entry 12). -/
def Config.sftDirPolarity : Bool := false

/-- The two readings of a shift word whose data bits 11 to 2 are not all zero (D17). -/
inductive SftHighBits where
  | fault
  | ignore
  deriving DecidableEq, Repr

/-- `SFT_HIGH_BITS`: the reading taken. DESIGN CHOICE of the spec (D17), safe (entry 13). -/
def Config.sftHighBits : SftHighBits := .fault

/-- The two readings of a shift amount of 16 or more (D33). -/
inductive SftAmount where
  | whole
  | mod16
  deriving DecidableEq, Repr

/-- `SFT_AMOUNT`: the reading taken. DESIGN CHOICE of the spec (D33), unsafe if wrong (entry 14). -/
def Config.sftAmount : SftAmount := .whole

end Sys2Proof
end

