-- ==== Sys2Proof/Syntax.lean ====
section
/-! DEFINITION. The instructions: one constructor per row of spec/opcode_table.json, the legal forms
of 30_encoding.md R96 and R101. The illegal verdict of R101 is `Decoded.illegal` (Decode.lean). -/

namespace Sys2Proof

/-- A decoded instruction. An `addr` is the 12-bit data field read as an absolute word address
(R93, R94). HLT and RSV11 keep their `ignored` data field, which has no effect (R99, R98), so that
encoding gives the fetched word back. -/
inductive Instr where
  /-- HLT (R140). -/
  | hlt (ignored : DataField)
  /-- LDA addr (R150). -/
  | lda (addr : DataField)
  /-- LDB addr (R151). -/
  | ldb (addr : DataField)
  /-- LDC addr (R152). -/
  | ldc (addr : DataField)
  /-- STA addr (R153). -/
  | sta (addr : DataField)
  /-- SWP 0: swap A and B (R160). -/
  | swp0
  /-- SWP 1: swap A and C (R161). -/
  | swp1
  /-- ADR 0: add A to A (R170). -/
  | adr0
  /-- ADR 1: add B to A (R171). -/
  | adr1
  /-- ADR 2: add C to A (R172). -/
  | adr2
  /-- ADM addr: add a memory word to A (R173). -/
  | adm (addr : DataField)
  /-- SBR 0: subtract A from A (R174). -/
  | sbr0
  /-- SBR 1: subtract B from A (R175). -/
  | sbr1
  /-- SBR 2: subtract C from A (R176). -/
  | sbr2
  /-- SBM addr: subtract a memory word from A (R177). -/
  | sbm (addr : DataField)
  /-- SFT 0: shift A left by B (R185). -/
  | sft0
  /-- SFT 1: shift A left by C (R186). -/
  | sft1
  /-- SFT 2: shift A right by B (R187). -/
  | sft2
  /-- SFT 3: shift A right by C (R188). -/
  | sft3
  /-- The reserved no-operation, opcode 11 (R141). -/
  | rsv11 (ignored : DataField)
  /-- INP: read one number into A (R195). -/
  | inp
  /-- OUT: output A as a number (R196). -/
  | out
  /-- OTC: output A as a character (R197). -/
  | otc
  /-- BRZ addr: branch if A is zero (R205). -/
  | brz (addr : DataField)
  /-- BRP addr: branch if A is at least zero, which is always (R206). -/
  | brp (addr : DataField)
  /-- JMP addr (R207). -/
  | jmp (addr : DataField)
  deriving DecidableEq, Repr

/-- The instruction's name in spec/opcode_table.json. -/
def Instr.mnemonic : Instr → String
  | .hlt _ => "HLT"
  | .lda _ => "LDA"
  | .ldb _ => "LDB"
  | .ldc _ => "LDC"
  | .sta _ => "STA"
  | .swp0 => "SWP_0"
  | .swp1 => "SWP_1"
  | .adr0 => "ADR_0"
  | .adr1 => "ADR_1"
  | .adr2 => "ADR_2"
  | .adm _ => "ADM"
  | .sbr0 => "SBR_0"
  | .sbr1 => "SBR_1"
  | .sbr2 => "SBR_2"
  | .sbm _ => "SBM"
  | .sft0 => "SFT_0"
  | .sft1 => "SFT_1"
  | .sft2 => "SFT_2"
  | .sft3 => "SFT_3"
  | .rsv11 _ => "RSV11"
  | .inp => "INP"
  | .out => "OUT"
  | .otc => "OTC"
  | .brz _ => "BRZ"
  | .brp _ => "BRP"
  | .jmp _ => "JMP"

end Sys2Proof
end

