-- ==== Sys2Proof/WellFormed.lean ====
section
/-! DEFINITION. The checks on raw instruction fields and on programs. A term of `Instr` has passed
them by its type: its address fields are 12 bits wide and its selectors are constructors. -/

namespace Sys2Proof

/-- The two fields of an instruction as numbers, before any check (30_encoding.md R91, R92). -/
structure Fields where
  opcode : Nat
  data : Nat
  deriving DecidableEq, Repr

/-- R91: "Invariant: opcode ∈ [0,15]". -/
def Fields.opcodeInRange (f : Fields) : Bool := decide (f.opcode ≤ 15)

/-- R91: "data ∈ [0,4095]". -/
def Fields.dataInRange (f : Fields) : Bool := decide (f.data ≤ 4095)

/-- The number of selector values R96 lists for an opcode whose data field is a selector (R93), and
`none` for the opcodes whose data field is an address or ignored. -/
def selectorCount : Nat → Option Nat
  | 5 => some 2
  | 6 => some 3
  | 8 => some 3
  | 10 => some 4
  | 12 => some 3
  | _ => none

/-- The data value is listed for its opcode: the complement of R97's illegal rows. -/
def Fields.selectorListed (f : Fields) : Bool :=
  match selectorCount f.opcode with
  | some n => decide (f.data < n)
  | none => true

/-- The pair names an instruction of R96. -/
def Fields.wellFormed (f : Fields) : Bool :=
  f.opcodeInRange && f.dataInRange && f.selectorListed

/-- A sequence of words that Load accepts: no longer than memory (70_reset_and_hazards.md R261). -/
def programFits (program : List Word) : Bool := decide (program.length ≤ Config.memWords)

end Sys2Proof
end

