-- ==== Sys2Proof/Decode.lean ====
section
/-! DEFINITION. The instruction decoder and the encoder (30_encoding.md R91 to R98, R101), and the
opcode table of R96 as rows of match and mask bits. -/

namespace Sys2Proof

/-- R91: `opcode = w[15:12]`. -/
def opcodeOf (w : Word) : Opcode := w.extractLsb' 12 4

/-- R91: `data = w[11:0]`. -/
def dataOf (w : Word) : DataField := w.extractLsb' 0 12

/-- R91: `word = (opcode << 12) | data`. -/
def packWord (op : Opcode) (d : DataField) : Word :=
  (op.setWidth 16 <<< 12) ||| d.setWidth 16

/-- R92's `encode(opcode, data) = opcode * 4096 + data`, on numbers. -/
def packFields (f : Fields) : Nat := f.opcode * 4096 + f.data

/-- R92's `decode(w) = (w[15:12], w[11:0])`, on a word. -/
def unpackFields (w : Word) : Fields := ⟨(opcodeOf w).toNat, (dataOf w).toNat⟩

/-- The decoder's verdict (R101): a legal instruction, or `Illegal(w)`. -/
inductive Decoded where
  | legal (i : Instr)
  | illegal (w : Word)
  deriving DecidableEq, Repr

/-- Opcode 5: the selector is the whole data field (R95). -/
def decodeSwap (w : Word) : Decoded :=
  match (dataOf w).toNat with
  | 0 => .legal .swp0
  | 1 => .legal .swp1
  | _ => .illegal w

/-- Opcode 6 (R95, R97). -/
def decodeAddRegister (w : Word) : Decoded :=
  match (dataOf w).toNat with
  | 0 => .legal .adr0
  | 1 => .legal .adr1
  | 2 => .legal .adr2
  | _ => .illegal w

/-- Opcode 8 (R95, R97). -/
def decodeSubtractRegister (w : Word) : Decoded :=
  match (dataOf w).toNat with
  | 0 => .legal .sbr0
  | 1 => .legal .sbr1
  | 2 => .legal .sbr2
  | _ => .illegal w

/-- The part of a shift's data field that is compared: all of it where high bits fault (D17, the
reading taken), the low two bits where they are ignored. -/
def shiftSelector (d : DataField) : Nat :=
  match Config.sftHighBits with
  | .fault => d.toNat
  | .ignore => d.toNat % 4

/-- Opcode 10 (R95, R190). -/
def decodeShift (w : Word) : Decoded :=
  match shiftSelector (dataOf w) with
  | 0 => .legal .sft0
  | 1 => .legal .sft1
  | 2 => .legal .sft2
  | 3 => .legal .sft3
  | _ => .illegal w

/-- Opcode 12 (R95, R198). -/
def decodeInputOutput (w : Word) : Decoded :=
  match (dataOf w).toNat with
  | 0 => .legal .inp
  | 1 => .legal .out
  | 2 => .legal .otc
  | _ => .illegal w

/-- The decoder: the opcode map of R96. All sixteen opcodes are dispatched (R97); the last arm is
reached by no 4-bit opcode. -/
def decode (w : Word) : Decoded :=
  match (opcodeOf w).toNat with
  | 0 => .legal (.hlt (dataOf w))
  | 1 => .legal (.lda (dataOf w))
  | 2 => .legal (.ldb (dataOf w))
  | 3 => .legal (.ldc (dataOf w))
  | 4 => .legal (.sta (dataOf w))
  | 5 => decodeSwap w
  | 6 => decodeAddRegister w
  | 7 => .legal (.adm (dataOf w))
  | 8 => decodeSubtractRegister w
  | 9 => .legal (.sbm (dataOf w))
  | 10 => decodeShift w
  | 11 => .legal (.rsv11 (dataOf w))
  | 12 => decodeInputOutput w
  | 13 => .legal (.brz (dataOf w))
  | 14 => .legal (.brp (dataOf w))
  | 15 => .legal (.jmp (dataOf w))
  | _ => .illegal w

/-- The encoder: each row's opcode and data field, from R96. -/
def encode : Instr → Word
  | .hlt d => packWord 0#4 d
  | .lda a => packWord 1#4 a
  | .ldb a => packWord 2#4 a
  | .ldc a => packWord 3#4 a
  | .sta a => packWord 4#4 a
  | .swp0 => packWord 5#4 0#12
  | .swp1 => packWord 5#4 1#12
  | .adr0 => packWord 6#4 0#12
  | .adr1 => packWord 6#4 1#12
  | .adr2 => packWord 6#4 2#12
  | .adm a => packWord 7#4 a
  | .sbr0 => packWord 8#4 0#12
  | .sbr1 => packWord 8#4 1#12
  | .sbr2 => packWord 8#4 2#12
  | .sbm a => packWord 9#4 a
  | .sft0 => packWord 10#4 0#12
  | .sft1 => packWord 10#4 1#12
  | .sft2 => packWord 10#4 2#12
  | .sft3 => packWord 10#4 3#12
  | .rsv11 d => packWord 11#4 d
  | .inp => packWord 12#4 0#12
  | .out => packWord 12#4 1#12
  | .otc => packWord 12#4 2#12
  | .brz a => packWord 13#4 a
  | .brp a => packWord 14#4 a
  | .jmp a => packWord 15#4 a

/-- One row of spec/opcode_table.json. -/
structure OpcodeRow where
  mnemonic : String
  matchBits : Word
  maskBits : Word
  deriving DecidableEq, Repr

/-- The row's fixed bits agree with the word. -/
def OpcodeRow.covers (r : OpcodeRow) (w : Word) : Bool := w &&& r.maskBits == r.matchBits

/-- Rows whose data field is fixed by nothing: mask `0xF000`. -/
def openRows : List OpcodeRow :=
  [⟨"HLT", 0x0000#16, 0xF000#16⟩, ⟨"LDA", 0x1000#16, 0xF000#16⟩, ⟨"LDB", 0x2000#16, 0xF000#16⟩,
   ⟨"LDC", 0x3000#16, 0xF000#16⟩, ⟨"STA", 0x4000#16, 0xF000#16⟩, ⟨"ADM", 0x7000#16, 0xF000#16⟩,
   ⟨"SBM", 0x9000#16, 0xF000#16⟩, ⟨"RSV11", 0xB000#16, 0xF000#16⟩, ⟨"BRZ", 0xD000#16, 0xF000#16⟩,
   ⟨"BRP", 0xE000#16, 0xF000#16⟩, ⟨"JMP", 0xF000#16, 0xF000#16⟩]

/-- Rows that are one word: mask `0xFFFF`. -/
def selectorRows : List OpcodeRow :=
  [⟨"SWP_0", 0x5000#16, 0xFFFF#16⟩, ⟨"SWP_1", 0x5001#16, 0xFFFF#16⟩,
   ⟨"ADR_0", 0x6000#16, 0xFFFF#16⟩, ⟨"ADR_1", 0x6001#16, 0xFFFF#16⟩,
   ⟨"ADR_2", 0x6002#16, 0xFFFF#16⟩, ⟨"SBR_0", 0x8000#16, 0xFFFF#16⟩,
   ⟨"SBR_1", 0x8001#16, 0xFFFF#16⟩, ⟨"SBR_2", 0x8002#16, 0xFFFF#16⟩,
   ⟨"SFT_0", 0xA000#16, 0xFFFF#16⟩, ⟨"SFT_1", 0xA001#16, 0xFFFF#16⟩,
   ⟨"SFT_2", 0xA002#16, 0xFFFF#16⟩, ⟨"SFT_3", 0xA003#16, 0xFFFF#16⟩,
   ⟨"INP", 0xC000#16, 0xFFFF#16⟩, ⟨"OUT", 0xC001#16, 0xFFFF#16⟩, ⟨"OTC", 0xC002#16, 0xFFFF#16⟩]

/-- The 26 rows of spec/opcode_table.json. -/
def opcodeRows : List OpcodeRow := openRows ++ selectorRows

/-- The instruction the decoder reads from an instruction of `nbits` bits with value `w`, the bits
above `nbits` zero. Every instruction is one 16-bit word (R90), so a value of 65536 or more is
none. -/
def decodeTableWord (nbits w : Nat) : Option Instr :=
  if w % 2 ^ nbits < 65536 then
    match decode (BitVec.ofNat 16 (w % 2 ^ nbits)) with
    | .legal i => some i
    | .illegal _ => none
  else none

end Sys2Proof
end

