-- ==== Sys2Proof/Machine/State.lean ====
section
/-! DEFINITION. The state of the core as plain data, the faults and refusals, and the state after
reset (10_state.md R20 to R40, 60_exceptions.md R220, 70_reset_and_hazards.md R260). -/

namespace Sys2Proof.Machine

/-- `run_state` (R27). -/
inductive RunState where
  | halted
  | running
  | faulted
  deriving DecidableEq, Repr

/-- The faults a step can record (R220 codes 1 to 3, R28), with their information. They stand in
`State.fault`: a faulting step ends in a NEXT state, since R228 says what state it leaves, and no
step of this model answers `Outcome.fault`. Code 4, Capacity, is a result of Load (R224). -/
inductive Fault where
  /-- `AddressRange(addr)`: raised by `memRead` and `memWrite` for an address outside 0 to 4095
  (R221); recorded by the fetch of `step`. Safe: the spec's own fault. -/
  | addressRange (addr : Int)
  /-- `ValueRange(addr, v)`: raised by `memWrite` for a value outside 0 to 65535 (R222); no step
  reaches it. Safe: the spec's own fault. -/
  | valueRange (addr value : Int)
  /-- `InvalidInstruction(w)`: raised by `step` for a word the decoder finds illegal (R223). Safe:
  the spec's own fault. -/
  | invalidInstruction (w : Word)
  deriving DecidableEq, Repr

/-- Why a step is refused. -/
inductive Refusal where
  /-- Raised by an arm of `exec` whose instruction has no meaning yet; no arm is one. Safe. -/
  | notModelled (mnemonic : String)
  /-- Raised by `step` when `run_state` is not Running: R35 refuses the Step transaction there and
  changes no state (D11). Safe. -/
  | stepNotRunning
  deriving DecidableEq, Repr

/-- The kind of an output event (R34). -/
inductive OutKind where
  | num
  | chr
  deriving DecidableEq, Repr

/-- One output event `(kind, value)` (R34, 45_io.md R199). -/
structure OutEvent where
  kind : OutKind
  value : Word
  deriving DecidableEq, Repr

/-- Memory: pairs of a word address and the word there. DESIGN CHOICE, safe (entry 1): the unit is
the word, not the byte, because R62 gives the machine no bytes. The canonical form is
`Memory.wf` (Ops.lean): addresses strictly rising below 4096, no entry 0, which is what an unlisted
cell reads as (R60: "zero-initialized"; entry 2). -/
abbrev Memory := List (Nat × Word)

/-- The state of the core (R20 to R34), with the host's input source (R33; entry 6). -/
structure State where
  /-- Register A, the accumulator (R20, R21). -/
  a : Word
  /-- Register B (R20). -/
  b : Word
  /-- Register C (R20). -/
  c : Word
  /-- The address of the instruction last executed (R24). -/
  current : Pointer
  /-- The address of the instruction the following step executes: the program counter (R25). -/
  next : Pointer
  /-- Halted, Running or Faulted (R27). -/
  runState : RunState
  /-- The fault record (R28). -/
  fault : Option Fault
  /-- The 4096 memory cells (R32, R60). -/
  mem : Memory
  /-- The integers the host has supplied and INP has not taken, the next one first (R33). -/
  input : List Int
  /-- The output trace, the oldest event first (R34). -/
  output : List OutEvent
  deriving DecidableEq, Repr

/-- The state after Reset with the three register parameters `REG_RESET_A`, `REG_RESET_B` and
`REG_RESET_C` (R40, R260) and an empty input source. -/
def State.resetWith (ra rb rc : Word) : State :=
  { a := ra, b := rb, c := rc, current := 0#13, next := 0#13, runState := .halted, fault := none,
    mem := [], input := [], output := [] }

/-- The state after Reset with the register values the model names (entry 3: DESIGN CHOICE,
unsafe). -/
def State.reset : State := State.resetWith Config.regResetA Config.regResetB Config.regResetC

end Sys2Proof.Machine
end

