-- ==== Sys2Proof/Machine/Ops.lean ====
section
/-! DEFINITION. The named operations over memory, the pointer pair and the ports, and fault entry
(20_memory.md R60 to R68, 10_state.md R30, 60_exceptions.md R228). There is no return from a fault
to model (R231). -/

namespace Sys2Proof.Machine

/-- `mem[addr]`: the listed word, or 0 (R60: zero-initialised). -/
def Memory.read : Memory → Nat → Word
  | [], _ => 0#16
  | (k, v) :: m, addr => if addr = k then v else Memory.read m addr

/-- Takes a cell off the list. -/
def Memory.erase : Memory → Nat → Memory
  | [], _ => []
  | (k, v) :: m, addr =>
    if addr = k then Memory.erase m addr else (k, v) :: Memory.erase m addr

/-- Puts a cell on the list before the first greater address. -/
def Memory.insert : Memory → Nat → Word → Memory
  | [], addr, x => [(addr, x)]
  | (k, v) :: m, addr, x =>
    if addr < k then (addr, x) :: (k, v) :: m else (k, v) :: Memory.insert m addr x

/-- `mem[addr] <- x`, keeping the canonical form: a cell of 0 is not listed. -/
def Memory.write (m : Memory) (addr : Nat) (x : Word) : Memory :=
  if x = 0#16 then m.erase addr else (m.erase addr).insert addr x

/-- The list is strictly rising from `lo`, below 4096, and lists no 0. -/
def Memory.wfFrom : Nat → Memory → Bool
  | _, [] => true
  | lo, (k, v) :: m =>
    decide (lo ≤ k) && decide (k < Config.memWords) && decide (v ≠ 0#16) &&
      Memory.wfFrom (k + 1) m

/-- The canonical form of memory. -/
def Memory.wf (m : Memory) : Bool := Memory.wfFrom 0 m

/-- Writes consecutive cells from `base` on (the copy of Load, 70_reset_and_hazards.md R261). -/
def Memory.writeFrom : Memory → Nat → List Word → Memory
  | m, _, [] => m
  | m, base, x :: xs => Memory.writeFrom (m.write base x) (base + 1) xs

/-- The address validation of every access (R64, R65): an integer from 0 to 4095. -/
def addressValid : Int → Bool
  | .ofNat n => decide (n < Config.memWords)
  | .negSucc _ => false

/-- The value check of a write (R65): an integer from 0 to 65535. -/
def valueValid : Int → Bool
  | .ofNat n => decide (n < 65536)
  | .negSucc _ => false

/-- `MemRead(addr, 1)` (R64). -/
def memRead (m : Memory) (addr : Int) : Except Fault Word :=
  if addressValid addr then .ok (m.read addr.toNat) else .error (.addressRange addr)

/-- `MemWrite(addr, 1, v)` (R65): the address is checked first, then the value (D29). -/
def memWrite (m : Memory) (addr v : Int) : Except Fault Memory :=
  if addressValid addr then
    if valueValid v then .ok (m.write addr.toNat (BitVec.ofInt 16 v))
    else .error (.valueRange addr v)
  else .error (.addressRange addr)

/-- `zext_13(d)`: the data field as a 13-bit address (00_scope.md R11, R94). -/
def zext13 (d : DataField) : Pointer := d.setWidth 13

/-- An address as the integer the access primitives take. -/
def addressOf (p : Pointer) : Int := p.toNat

/-- Steps 1 and 2 of the cycle (R30): `current <- next`, `next <- current + 1`, a 13-bit add. -/
def advance (s : State) : State := { s with current := s.next, next := s.next + 1#13 }

/-- Step 3 of the cycle: `MemRead(current, 1)` for the `current` that step 1 sets (R30). -/
def fetch (s : State) : Except Fault Word := memRead s.mem (addressOf s.next)

/-- Fault entry (R228): the pointer pair as steps 1 and 2 leave it, the fault recorded, Faulted,
and nothing else. The spec describes the state, so it is a next state (entry 9). -/
def takeFault (f : Fault) (s : State) : Host.Outcome State Fault Refusal :=
  .next { advance s with fault := some f, runState := .faulted }

/-- An instruction that reads the cell its data field names (R67): the step ends with `k` of the
word read, or in the access's fault. -/
def withRead (addr : DataField) (s : State) (k : Word → State) :
    Host.Outcome State Fault Refusal :=
  match memRead s.mem (addressOf (zext13 addr)) with
  | .ok v => .next (k v)
  | .error f => takeFault f s

/-- The redirect `next <- zext_13(data)` (46_branch.md R208). -/
def redirect (s : State) (target : DataField) : State := { s with next := zext13 target }

/-- `Output(kind, x[A])`: appends one event to the trace (R11, 45_io.md R199). -/
def emit (s : State) (kind : OutKind) : State := { s with output := s.output ++ [⟨kind, s.a⟩] }

/-- The numeric code of a fault record (60_exceptions.md R220; naming only, D9). -/
def faultCode : Option Fault → Nat
  | none => 0
  | some (.addressRange _) => 1
  | some (.valueRange _ _) => 2
  | some (.invalidInstruction _) => 3

/-- The code of Capacity, which only Load reports (R220, R224). -/
def capacityCode : Nat := 4

end Sys2Proof.Machine
end

