-- ==== Sys2Proof/Machine/Operands.lean ====
section
/-! DEFINITION. The register-file multiplexer (10_state.md R22) and what the bits of a shift's
selector choose (30_encoding.md R95). -/

namespace Sys2Proof.Machine

/-- The names of the three registers (R20). -/
inductive Reg where
  | a
  | b
  | c
  deriving DecidableEq, Repr

/-- `x[r]`: the read side of the multiplexer (R22). -/
def readReg (s : State) : Reg → Word
  | .a => s.a
  | .b => s.b
  | .c => s.c

/-- `x[r] <- v`: the write side of the multiplexer (R22). -/
def writeReg (s : State) (r : Reg) (v : Word) : State :=
  match r with
  | .a => { s with a := v }
  | .b => { s with b := v }
  | .c => { s with c := v }

/-- The two directions of a shift (44_shift.md). -/
inductive ShiftDir where
  | left
  | right
  deriving DecidableEq, Repr

/-- The register that data bit 0 of a shift selects (R95, D15; entry 12). -/
def shiftAmountReg (bit0 : Bool) : Reg := if bit0 = Config.sftSelPolarity then .b else .c

/-- The direction that data bit 1 of a shift selects (R95, D16; entry 12). -/
def shiftDirection (bit1 : Bool) : ShiftDir :=
  if bit1 = Config.sftDirPolarity then .left else .right

end Sys2Proof.Machine
end

