-- ==== Sys2Proof/Machine/Alu.lean ====
section
/-! DEFINITION. The arithmetic laws: every result is computed over the integers and wrapped
(00_scope.md R10, R11; 43_arithmetic.md R178, R179; 44_shift.md R189). -/

namespace Sys2Proof.Machine

/-- `wrap(v)`: the word congruent to v modulo 65536 (R10). -/
def wrap (v : Int) : Word := BitVec.ofInt 16 v

/-- `wrap(a + b)` (R178). -/
def aluAdd (x y : Word) : Word := wrap ((x.toNat : Int) + (y.toNat : Int))

/-- `wrap(a - b)` (R179). -/
def aluSub (x y : Word) : Word := wrap ((x.toNat : Int) - (y.toNat : Int))

/-- The shift amount n: the whole register value (R189, D33; entry 14). -/
def shiftAmount (y : Word) : Nat :=
  match Config.sftAmount with
  | .whole => y.toNat
  | .mod16 => y.toNat % 16

/-- Left: `wrap(a * 2^n)`. Right: `floor(a / 2^n)` (R189). -/
def aluShift (dir : ShiftDir) (x y : Word) : Word :=
  match dir with
  | .left => wrap ((x.toNat * 2 ^ shiftAmount y : Nat) : Int)
  | .right => wrap ((x.toNat / 2 ^ shiftAmount y : Nat) : Int)

end Sys2Proof.Machine
end

