-- ==== Sys2Proof/Machine/Arithmetic.lean ====
section
/-! DEFINITION. Addition and subtraction (43_arithmetic.md R170 to R177). -/

namespace Sys2Proof.Machine

/-- `x[A] <- wrap(x[A] + x[r])`. -/
def addRegister (r : Reg) (s : State) : Host.Outcome State Fault Refusal :=
  .next (writeReg (advance s) .a (aluAdd (readReg s .a) (readReg s r)))

/-- `x[A] <- wrap(x[A] - x[r])`. -/
def subtractRegister (r : Reg) (s : State) : Host.Outcome State Fault Refusal :=
  .next (writeReg (advance s) .a (aluSub (readReg s .a) (readReg s r)))

/-- ADR 0 (R170). -/
def execAdr0 (s : State) : Host.Outcome State Fault Refusal := addRegister .a s

/-- ADR 1 (R171). -/
def execAdr1 (s : State) : Host.Outcome State Fault Refusal := addRegister .b s

/-- ADR 2 (R172). -/
def execAdr2 (s : State) : Host.Outcome State Fault Refusal := addRegister .c s

/-- ADM addr (R173). -/
def execAdm (addr : DataField) (s : State) : Host.Outcome State Fault Refusal :=
  withRead addr s fun m => writeReg (advance s) .a (aluAdd (readReg s .a) m)

/-- SBR 0 (R174). -/
def execSbr0 (s : State) : Host.Outcome State Fault Refusal := subtractRegister .a s

/-- SBR 1 (R175). -/
def execSbr1 (s : State) : Host.Outcome State Fault Refusal := subtractRegister .b s

/-- SBR 2 (R176). -/
def execSbr2 (s : State) : Host.Outcome State Fault Refusal := subtractRegister .c s

/-- SBM addr (R177). -/
def execSbm (addr : DataField) (s : State) : Host.Outcome State Fault Refusal :=
  withRead addr s fun m => writeReg (advance s) .a (aluSub (readReg s .a) m)

end Sys2Proof.Machine
end

