-- ==== Sys2Proof/Machine/Flags.lean ====
section
/-! DEFINITION. The machine has no flags (10_state.md R29): no instruction produces one. What stands
here are the two tests of register A that the conditional branches make in their place. -/

namespace Sys2Proof.Machine

/-- The test of BRZ: all 16 bits of A are zero (46_branch.md R205). -/
def isZero (x : Word) : Bool := decide (x.toNat = 0)

/-- The test of BRP, literally: `x[A] >= 0` for an unsigned word, which is always true (R206, D23;
entry 16). -/
def isAtLeastZero (x : Word) : Bool := decide ((0 : Int) ≤ (x.toNat : Int))

end Sys2Proof.Machine
end

