-- ==== Sys2Proof/Machine/Branch.lean ====
section
/-! DEFINITION. The branches and the jump (46_branch.md R205 to R208). -/

namespace Sys2Proof.Machine

/-- The two-way multiplexer on `next` (R208): the target when the test holds, else `current + 1`. -/
def branchWhen (taken : Bool) (target : DataField) (s : State) :
    Host.Outcome State Fault Refusal :=
  if taken then .next (redirect (advance s) target) else .next (advance s)

/-- BRZ addr (R205). -/
def execBrz (addr : DataField) (s : State) : Host.Outcome State Fault Refusal :=
  branchWhen (isZero s.a) addr s

/-- BRP addr (R206): the test is literal and always true. -/
def execBrp (addr : DataField) (s : State) : Host.Outcome State Fault Refusal :=
  branchWhen (isAtLeastZero s.a) addr s

/-- JMP addr (R207). -/
def execJmp (addr : DataField) (s : State) : Host.Outcome State Fault Refusal :=
  .next (redirect (advance s) addr)

end Sys2Proof.Machine
end

