-- ==== Sys2Proof/Machine/Halt.lean ====
section
/-! DEFINITION. Halt and the reserved no-operation (40_halt_reserved.md R140, R141). -/

namespace Sys2Proof.Machine

/-- HLT (R140): `run_state <- Halted`; the data field is ignored. -/
def execHlt (_ignored : DataField) (s : State) : Host.Outcome State Fault Refusal :=
  .next { advance s with runState := .halted }

/-- RSV11 (R141): nothing; the data field is ignored (D18; entry 15). -/
def execRsv11 (_ignored : DataField) (s : State) : Host.Outcome State Fault Refusal :=
  .next (advance s)

end Sys2Proof.Machine
end

