-- ==== Sys2Proof/Machine/InputOutput.lean ====
section
/-! DEFINITION. Input and output (45_io.md R195 to R197, 10_state.md R38). -/

namespace Sys2Proof.Machine

/-- INP (R195). With an empty input source the core holds: the state is unchanged, the pointer pair
included, until the host supplies an integer (R38, D19; entry 7). -/
def execInp (s : State) : Host.Outcome State Fault Refusal :=
  match s.input with
  | [] => .next s
  | v :: rest => .next { writeReg (advance s) .a (wrap v) with input := rest }

/-- OUT: `Output(NUM, x[A])` (R196). -/
def execOut (s : State) : Host.Outcome State Fault Refusal := .next (emit (advance s) .num)

/-- OTC: `Output(CHR, x[A])` (R197). -/
def execOtc (s : State) : Host.Outcome State Fault Refusal := .next (emit (advance s) .chr)

end Sys2Proof.Machine
end

