-- ==== Sys2Proof/Machine/LoadStore.lean ====
section
/-! DEFINITION. The loads and the store (41_load_store.md R150 to R153). Each meaning takes the
state before the step and answers the state after the whole cycle of R30 (entry 11). -/

namespace Sys2Proof.Machine

/-- `x[r] <- MemRead(zext_13(data), 1)`. -/
def loadRegister (r : Reg) (addr : DataField) (s : State) : Host.Outcome State Fault Refusal :=
  withRead addr s fun v => writeReg (advance s) r v

/-- LDA addr (R150). -/
def execLda (addr : DataField) (s : State) : Host.Outcome State Fault Refusal :=
  loadRegister .a addr s

/-- LDB addr (R151). -/
def execLdb (addr : DataField) (s : State) : Host.Outcome State Fault Refusal :=
  loadRegister .b addr s

/-- LDC addr (R152). -/
def execLdc (addr : DataField) (s : State) : Host.Outcome State Fault Refusal :=
  loadRegister .c addr s

/-- STA addr (R153): `MemWrite(zext_13(data), 1, x[A])`. -/
def execSta (addr : DataField) (s : State) : Host.Outcome State Fault Refusal :=
  match memWrite s.mem (addressOf (zext13 addr)) (s.a.toNat : Int) with
  | .ok m => .next { advance s with mem := m }
  | .error f => takeFault f s

end Sys2Proof.Machine
end

