-- ==== Sys2Proof/Machine/Shift.lean ====
section
/-! DEFINITION. The shifts (44_shift.md R185 to R188). The two bits of each selector pass through
the polarities of D15 and D16 (entry 12). -/

namespace Sys2Proof.Machine

/-- A shift whose selector has data bits 1 and 0 as given. -/
def shiftRegister (bit1 bit0 : Bool) (s : State) : Host.Outcome State Fault Refusal :=
  .next (writeReg (advance s) .a
    (aluShift (shiftDirection bit1) (readReg s .a) (readReg s (shiftAmountReg bit0))))

/-- SFT 0: left by B (R185). -/
def execSft0 (s : State) : Host.Outcome State Fault Refusal := shiftRegister false false s

/-- SFT 1: left by C (R186). -/
def execSft1 (s : State) : Host.Outcome State Fault Refusal := shiftRegister false true s

/-- SFT 2: right by B (R187). -/
def execSft2 (s : State) : Host.Outcome State Fault Refusal := shiftRegister true false s

/-- SFT 3: right by C (R188). -/
def execSft3 (s : State) : Host.Outcome State Fault Refusal := shiftRegister true true s

end Sys2Proof.Machine
end

