-- ==== Sys2Proof/Machine/Swap.lean ====
section
/-! DEFINITION. The register swap (42_swap.md R160, R161). -/

namespace Sys2Proof.Machine

/-- Both registers are read before either is written (R22). -/
def swapWithA (r : Reg) (s : State) : Host.Outcome State Fault Refusal :=
  .next (writeReg (writeReg (advance s) .a (readReg s r)) r (readReg s .a))

/-- SWP 0: swap A and B (R160). -/
def execSwp0 (s : State) : Host.Outcome State Fault Refusal := swapWithA .b s

/-- SWP 1: swap A and C (R161). -/
def execSwp1 (s : State) : Host.Outcome State Fault Refusal := swapWithA .c s

end Sys2Proof.Machine
end

