-- ==== Sys2Proof/Machine/Dispatch.lean ====
section
/-! DEFINITION. One arm per instruction: each calls its meaning. -/

namespace Sys2Proof.Machine

/-- The step of a decoded instruction: steps 1, 2 and 5 of the cycle of R30 (entry 11). -/
def exec (i : Instr) (s : State) : Host.Outcome State Fault Refusal :=
  match i with
  | .hlt d => Sys2Proof.Machine.execHlt d s
  | .lda addr => Sys2Proof.Machine.execLda addr s
  | .ldb addr => Sys2Proof.Machine.execLdb addr s
  | .ldc addr => Sys2Proof.Machine.execLdc addr s
  | .sta addr => Sys2Proof.Machine.execSta addr s
  | .swp0 => Sys2Proof.Machine.execSwp0 s
  | .swp1 => Sys2Proof.Machine.execSwp1 s
  | .adr0 => Sys2Proof.Machine.execAdr0 s
  | .adr1 => Sys2Proof.Machine.execAdr1 s
  | .adr2 => Sys2Proof.Machine.execAdr2 s
  | .adm addr => Sys2Proof.Machine.execAdm addr s
  | .sbr0 => Sys2Proof.Machine.execSbr0 s
  | .sbr1 => Sys2Proof.Machine.execSbr1 s
  | .sbr2 => Sys2Proof.Machine.execSbr2 s
  | .sbm addr => Sys2Proof.Machine.execSbm addr s
  | .sft0 => Sys2Proof.Machine.execSft0 s
  | .sft1 => Sys2Proof.Machine.execSft1 s
  | .sft2 => Sys2Proof.Machine.execSft2 s
  | .sft3 => Sys2Proof.Machine.execSft3 s
  | .rsv11 d => Sys2Proof.Machine.execRsv11 d s
  | .inp => Sys2Proof.Machine.execInp s
  | .out => Sys2Proof.Machine.execOut s
  | .otc => Sys2Proof.Machine.execOtc s
  | .brz addr => Sys2Proof.Machine.execBrz addr s
  | .brp addr => Sys2Proof.Machine.execBrp addr s
  | .jmp addr => Sys2Proof.Machine.execJmp addr s

end Sys2Proof.Machine
end

