-- ==== Sys2Proof/Machine/Step.lean ====
section
/-! DEFINITION. One step of the core (10_state.md R30), and the placing of a word where the next
step fetches. -/

namespace Sys2Proof.Machine

/-- Steps 4 and 5 for a fetched word: the rule R96 selects, or `InvalidInstruction(w)` (R97). -/
def execWord (w : Word) (s : State) : Host.Outcome State Fault Refusal :=
  match decode w with
  | .legal i => exec i s
  | .illegal w => takeFault (.invalidInstruction w) s

/-- One step (R30). Its precondition is Running; elsewhere it is refused and changes nothing (R35,
D11; entry 10). -/
def step (s : State) : Host.Outcome State Fault Refusal :=
  match s.runState with
  | .running =>
    match fetch s with
    | .ok w => execWord w s
    | .error f => takeFault f s
  | .halted => .refused .stepNotRunning
  | .faulted => .refused .stepNotRunning

/-- The address the next step fetches from, or 0, where Run starts a program (R262), if `next` names
no cell. -/
def State.fetchPointer (s : State) : Pointer :=
  if s.next.toNat < Config.memWords then s.next else Config.entry

/-- The state with the instruction of `nbits` bits and value `w` in the cell the next step fetches
from, and Running. It stands for the host's Load and Run (entry 18). -/
def State.withFetchWord (s : State) (nbits w : Nat) : State :=
  { s with
    next := s.fetchPointer
    runState := .running
    mem := s.mem.write s.fetchPointer.toNat (BitVec.ofNat 16 (w % 2 ^ nbits)) }

end Sys2Proof.Machine
end

