-- ==== Sys2Proof/Machine/Assembler.lean ====
section
/-! DEFINITION. The assembler's contract, "`build(source: text) → sequence of word`": source syntax
and emitted words (30_encoding.md R110 to R120; entry 22). It is software outside the core (00_scope.md
R5); nothing of the machine calls it. -/

namespace Sys2Proof.Machine

/-- The errors of R118, with the source line counted from 1. -/
inductive AsmError where
  | syntaxError (line : Nat)
  | nameError (line : Nat)
  | rangeError (line : Nat)
  deriving DecidableEq, Repr

/-- What the mnemonic table says of a name (R113). -/
inductive MnemonicEntry where
  | plain (opcode : Nat)
  | fixed (opcode data : Nat)
  | dat
  deriving DecidableEq, Repr

/-- An operand (R114). -/
inductive AsmOperand where
  | absent
  | number (n : Nat)
  | label (name : List Char)
  deriving DecidableEq, Repr

/-- A retained line (R111, R112). -/
structure AsmLine where
  line : Nat
  label : Option (List Char)
  entry : MnemonicEntry
  operand : AsmOperand
  deriving DecidableEq, Repr

/-- The source is split into lines (R110). -/
def splitLines : List Char → List (List Char)
  | [] => [[]]
  | ch :: cs =>
    if ch = '\n' then [] :: splitLines cs
    else
      match splitLines cs with
      | [] => [[ch]]
      | l :: ls => (ch :: l) :: ls

/-- A line is cut at the first `//` (R111). -/
def cutComment : List Char → List Char
  | [] => []
  | ch :: cs => if ch = '/' ∧ cs.head? = some '/' then [] else ch :: cutComment cs

/-- What a token read so far contributes. -/
def flushToken (token : List Char) : List (List Char) :=
  if token.isEmpty then [] else [token.reverse]

/-- Splits on whitespace; the token being read is held in reverse (R111). -/
def tokensFrom : List Char → List Char → List (List Char)
  | token, [] => flushToken token
  | token, ch :: cs =>
    if ch.isWhitespace then flushToken token ++ tokensFrom [] cs
    else tokensFrom (ch :: token) cs

/-- The tokens of a line (R111). -/
def lineTokens (l : List Char) : List (List Char) := tokensFrom [] (cutComment l)

/-- The mnemonic table (R113, D24). -/
def mnemonicTable : List (List Char × MnemonicEntry) :=
  [(['H', 'L', 'T'], .plain 0), (['L', 'D', 'A'], .plain 1), (['L', 'D', 'B'], .plain 2),
   (['L', 'D', 'C'], .plain 3), (['S', 'T', 'A'], .plain 4), (['S', 'W', 'P'], .plain 5),
   (['A', 'D', 'R'], .plain 6), (['A', 'D', 'M'], .plain 7), (['S', 'B', 'R'], .plain 8)] ++
  [(['S', 'B', 'M'], .plain 9), (['S', 'F', 'T'], .plain 10), (['I', 'N', 'P'], .fixed 12 0),
   (['O', 'U', 'T'], .fixed 12 1), (['O', 'T', 'C'], .fixed 12 2), (['B', 'R', 'Z'], .plain 13),
   (['B', 'R', 'P'], .plain 14), (['J', 'M', 'P'], .plain 15), (['D', 'A', 'T'], .dat)]

/-- Exact, upper-case match (R112, D25). -/
def mnemonicOf (token : List Char) : Option MnemonicEntry := mnemonicTable.lookup token

/-- The value of a string of decimal digits. -/
def decimalValue (token : List Char) : Nat :=
  token.foldl (fun n ch => n * 10 + (ch.toNat - '0'.toNat)) 0

/-- A trailing token: `$name`, a string of digits, or malformed (R114, D25). -/
def parseOperand (token : List Char) : Option AsmOperand :=
  match token with
  | [] => none
  | ch :: cs =>
    if ch = '$' then some (.label cs)
    else if (ch :: cs).all Char.isDigit then some (.number (decimalValue (ch :: cs)))
    else none

/-- The tokens after the mnemonic: none, or one operand (R112, R114). -/
def parseAfterMnemonic (line : Nat) (label : Option (List Char)) (entry : MnemonicEntry) :
    List (List Char) → Except AsmError (Option AsmLine)
  | [] => .ok (some ⟨line, label, entry, .absent⟩)
  | [token] =>
    match parseOperand token with
    | some operand => .ok (some ⟨line, label, entry, operand⟩)
    | none => .error (.syntaxError line)
  | _ :: _ :: _ => .error (.syntaxError line)

/-- A line's tokens: nothing, a mnemonic first, or a label and then a mnemonic (R111, R112). -/
def parseLine (line : Nat) : List (List Char) → Except AsmError (Option AsmLine)
  | [] => .ok none
  | first :: rest =>
    match mnemonicOf first with
    | some entry => parseAfterMnemonic line none entry rest
    | none =>
      match rest with
      | [] => .error (.syntaxError line)
      | second :: rest' =>
        match mnemonicOf second with
        | some entry => parseAfterMnemonic line (some first) entry rest'
        | none => .error (.syntaxError line)

/-- The label table: names and addresses (R115). -/
abbrev LabelTable := List (List Char × Nat)

/-- Records a line's label; a label declared twice is a NameError (R115, D27). -/
def declareLabel (labels : LabelTable) (x : AsmLine) (addr : Nat) : Except AsmError LabelTable :=
  match x.label with
  | none => .ok labels
  | some name =>
    match labels.lookup name with
    | some _ => .error (.nameError x.line)
    | none => .ok (labels ++ [(name, addr)])

/-- The first pass: retained lines numbered 0, 1, 2, … and the label table (R115). -/
def firstPass (line addr : Nat) (labels : LabelTable) :
    List (List Char) → Except AsmError (List AsmLine × LabelTable)
  | [] => .ok ([], labels)
  | l :: ls =>
    match parseLine line (lineTokens l) with
    | .error e => .error e
    | .ok none => firstPass (line + 1) addr labels ls
    | .ok (some x) =>
      match declareLabel labels x addr with
      | .error e => .error e
      | .ok labels' =>
        match firstPass (line + 1) (addr + 1) labels' ls with
        | .error e => .error e
        | .ok (xs, table) => .ok (x :: xs, table)

/-- The operand's number: 0 when absent (R114), the address of a label, or a NameError (R116). -/
def resolveOperand (labels : LabelTable) (x : AsmLine) : Except AsmError Nat :=
  match x.operand with
  | .absent => .ok 0
  | .number n => .ok n
  | .label name =>
    match labels.lookup name with
    | some addr => .ok addr
    | none => .error (.nameError x.line)

/-- The word of a line with its operand resolved: the range check of R117, then R116. -/
def emitWord (line : Nat) (entry : MnemonicEntry) (operand : Nat) : Except AsmError Word :=
  match entry with
  | .dat =>
    if operand ≤ 65535 then .ok (BitVec.ofNat 16 operand) else .error (.rangeError line)
  | .plain opcode =>
    if operand ≤ 4095 then .ok (BitVec.ofNat 16 (packFields ⟨opcode, operand⟩))
    else .error (.rangeError line)
  | .fixed opcode data =>
    if operand ≤ 4095 then .ok (BitVec.ofNat 16 (packFields ⟨opcode, data⟩))
    else .error (.rangeError line)

/-- The second pass: one word for each retained line, in order (R116). -/
def secondPass (labels : LabelTable) : List AsmLine → Except AsmError (List Word)
  | [] => .ok []
  | x :: xs =>
    match resolveOperand labels x with
    | .error e => .error e
    | .ok operand =>
      match emitWord x.line x.entry operand with
      | .error e => .error e
      | .ok w =>
        match secondPass labels xs with
        | .error e => .error e
        | .ok ws => .ok (w :: ws)

/-- Assembly of a text given as characters; the first error ends it (R118). -/
def assemble (source : List Char) : Except AsmError (List Word) :=
  match firstPass 1 0 [] (splitLines source) with
  | .error e => .error e
  | .ok (lines, labels) => secondPass labels lines

/-- `build(source: text) → sequence of word`. -/
def build (source : String) : Except AsmError (List Word) := assemble source.toList

/-- The retained lines of a text: those with at least one token (R111). -/
def retainedLines (source : List Char) : List (List Char) :=
  (splitLines source).filter fun l => !(lineTokens l).isEmpty

end Sys2Proof.Machine
end

