-- ==== Sys2Proof/Machine/Datapath.lean ====
section
/-! DEFINITION. The second design of the core: the decoder's control outputs, one row per form, and
the five sub-blocks they drive (30_encoding.md R102, 00_scope.md R2). Its ALU is the hardware of
43_arithmetic.md R178, R179 and 44_shift.md R189: a 16-bit adder, subtraction by complement, a
barrel shifter. `exec` does not use it. -/

namespace Sys2Proof.Machine

/-- The column "ALU op" of R102. `opA` is always register A. -/
inductive AluOp where
  | idle
  | add
  | sub
  | shl
  | shr
  | testZero
  | testTrue
  deriving DecidableEq, Repr

/-- The column "opB source". -/
inductive OperandB where
  | idle
  | reg (r : Reg)
  | readData
  deriving DecidableEq, Repr

/-- The column "mem". A write's data is register A. -/
inductive MemControl where
  | idle
  | read (addr : DataField)
  | write (addr : DataField)
  deriving DecidableEq, Repr

/-- Where a register written takes its value from (the column "wr"). -/
inductive WriteSource where
  | readData
  | alu
  | reg (r : Reg)
  | input
  deriving DecidableEq, Repr

/-- The column "redirect". -/
inductive RedirectControl where
  | keep
  | ifTest (addr : DataField)
  | always (addr : DataField)
  deriving DecidableEq, Repr

/-- One row of R102's table. The defaults are its dashes; the last four fields are the column
"other". -/
structure Control where
  opB : OperandB := .idle
  aluOp : AluOp := .idle
  mem : MemControl := .idle
  writes : List (Reg × WriteSource) := []
  redirect : RedirectControl := .keep
  halts : Bool := false
  takesInput : Bool := false
  output : Option OutKind := none
  invalid : Option Word := none
  deriving DecidableEq, Repr

/-- The table of R102. -/
def controlOf : Decoded → Control
  | .legal (.hlt _) => { halts := true }
  | .legal (.lda addr) => { mem := .read addr, writes := [(.a, .readData)] }
  | .legal (.ldb addr) => { mem := .read addr, writes := [(.b, .readData)] }
  | .legal (.ldc addr) => { mem := .read addr, writes := [(.c, .readData)] }
  | .legal (.sta addr) => { mem := .write addr }
  | .legal .swp0 => { writes := [(.a, .reg .b), (.b, .reg .a)] }
  | .legal .swp1 => { writes := [(.a, .reg .c), (.c, .reg .a)] }
  | .legal .adr0 => { opB := .reg .a, aluOp := .add, writes := [(.a, .alu)] }
  | .legal .adr1 => { opB := .reg .b, aluOp := .add, writes := [(.a, .alu)] }
  | .legal .adr2 => { opB := .reg .c, aluOp := .add, writes := [(.a, .alu)] }
  | .legal (.adm addr) =>
    { opB := .readData, aluOp := .add, mem := .read addr, writes := [(.a, .alu)] }
  | .legal .sbr0 => { opB := .reg .a, aluOp := .sub, writes := [(.a, .alu)] }
  | .legal .sbr1 => { opB := .reg .b, aluOp := .sub, writes := [(.a, .alu)] }
  | .legal .sbr2 => { opB := .reg .c, aluOp := .sub, writes := [(.a, .alu)] }
  | .legal (.sbm addr) =>
    { opB := .readData, aluOp := .sub, mem := .read addr, writes := [(.a, .alu)] }
  | .legal .sft0 => { opB := .reg .b, aluOp := .shl, writes := [(.a, .alu)] }
  | .legal .sft1 => { opB := .reg .c, aluOp := .shl, writes := [(.a, .alu)] }
  | .legal .sft2 => { opB := .reg .b, aluOp := .shr, writes := [(.a, .alu)] }
  | .legal .sft3 => { opB := .reg .c, aluOp := .shr, writes := [(.a, .alu)] }
  | .legal (.rsv11 _) => {}
  | .legal .inp => { writes := [(.a, .input)], takesInput := true }
  | .legal .out => { output := some .num }
  | .legal .otc => { output := some .chr }
  | .legal (.brz addr) => { aluOp := .testZero, redirect := .ifTest addr }
  | .legal (.brp addr) => { aluOp := .testTrue, redirect := .always addr }
  | .legal (.jmp addr) => { redirect := .always addr }
  | .illegal w => { invalid := some w }

/-- The 16-bit barrel shifter of R189: fed by the low four bits of the amount, forced to zero when
any of bits 15 to 4 is set. -/
def barrelShift (dir : ShiftDir) (x y : Word) : Word :=
  if y.extractLsb' 4 12 = 0#12 then
    match dir with
    | .left => x <<< (y.extractLsb' 0 4).toNat
    | .right => x >>> (y.extractLsb' 0 4).toNat
  else 0#16

/-- The ALU's word output: addition truncated to 16 bits (R178), subtraction as
`a + (65535 - b) + 1` (R179), the shifter (R189). -/
def aluOutput (op : AluOp) (x y : Word) : Word :=
  match op with
  | .add => x + y
  | .sub => x + (65535#16 - y) + 1#16
  | .shl => barrelShift .left x y
  | .shr => barrelShift .right x y
  | .idle => 0#16
  | .testZero => 0#16
  | .testTrue => 0#16

/-- The ALU's test output (R102). -/
def aluTest (op : AluOp) (x : Word) : Bool :=
  match op with
  | .testZero => x == 0#16
  | .testTrue => true
  | .idle => false
  | .add => false
  | .sub => false
  | .shl => false
  | .shr => false

/-- The memory port's read data (R36). -/
def portReadData (m : Memory) : MemControl → Word
  | .read addr => m.read addr.toNat
  | .write _ => 0#16
  | .idle => 0#16

/-- The multiplexer in front of the ALU's second operand. -/
def operandB (s : State) (readData : Word) : OperandB → Word
  | .reg r => readReg s r
  | .readData => readData
  | .idle => 0#16

/-- The input port's word, `wrap` of the first integer of the source. -/
def portInput (s : State) : Word :=
  match s.input with
  | [] => 0#16
  | v :: _ => wrap v

/-- The value a write source carries; every source is read before any register is written (R22). -/
def sourceValue (s : State) (readData alu : Word) : WriteSource → Word
  | .readData => readData
  | .alu => alu
  | .reg r => readReg s r
  | .input => portInput s

/-- The new value of register r: that of the first write naming r, else the old one. -/
def registerAfter (s : State) (readData alu : Word) (r : Reg) :
    List (Reg × WriteSource) → Word
  | [] => readReg s r
  | (q, src) :: ws =>
    if r = q then sourceValue s readData alu src else registerAfter s readData alu r ws

/-- The redirect logic (R208). -/
def nextPointer (s : State) (test : Bool) : RedirectControl → Pointer
  | .keep => s.next + 1#13
  | .ifTest addr => if test then zext13 addr else s.next + 1#13
  | .always addr => zext13 addr

/-- All outputs of the sub-blocks taken together at the end of the step. -/
def latch (c : Control) (s : State) : State :=
  let readData := portReadData s.mem c.mem
  let alu := aluOutput c.aluOp s.a (operandB s readData c.opB)
  { a := registerAfter s readData alu .a c.writes
    b := registerAfter s readData alu .b c.writes
    c := registerAfter s readData alu .c c.writes
    current := s.next
    next := nextPointer s (aluTest c.aluOp s.a) c.redirect
    runState := if c.halts then .halted else s.runState
    fault := s.fault
    mem := match c.mem with
      | .write addr => s.mem.write addr.toNat s.a
      | .read _ => s.mem
      | .idle => s.mem
    input := if c.takesInput then s.input.tail else s.input
    output := match c.output with
      | some kind => s.output ++ [⟨kind, s.a⟩]
      | none => s.output }

/-- One step of the datapath under the decoder's outputs: the fault of an illegal word, the hold of
INP on an empty source (R38), or the latched outputs. -/
def datapath (c : Control) (s : State) : Host.Outcome State Fault Refusal :=
  match c.invalid with
  | some w => takeFault (.invalidInstruction w) s
  | none => if c.takesInput && s.input.isEmpty then .next s else .next (latch c s)

end Sys2Proof.Machine
end

