-- ==== Sys2Proof/Machine/Transactions.lean ====
section
/-! DEFINITION. The host's side: the transactions Reset, Load, Run and Step, the supply of input and
the status port (10_state.md R33 to R38, 70_reset_and_hazards.md R260 to R265). -/

namespace Sys2Proof.Machine

/-- What the host does to the core between steps (R35, R38). A Reset carries the values that A, B
and C take, which the spec leaves open (D4). -/
inductive HostAction where
  | reset (ra rb rc : Word)
  | load (program : List Word)
  | run
  | step
  | supply (v : Int)
  deriving DecidableEq, Repr

/-- The answer to a transaction: done, refused outside its precondition (R35), or `Capacity(n)`
(R224). -/
inductive Response where
  | accepted
  | refused
  | capacity (n : Nat)
  deriving DecidableEq, Repr

/-- Reset (R260), available in every run state. The input source is the host's and stays (R40;
entry 19). -/
def doReset (ra rb rc : Word) (s : State) : State :=
  { State.resetWith ra rb rc with input := s.input }

/-- Load (R261): the precondition, then the length, then the copy. Cells from n up keep what they
held (D12; entry 17). -/
def doLoad (program : List Word) (s : State) : State × Response :=
  match s.runState with
  | .halted =>
    if programFits program then
      ({ s with mem := s.mem.writeFrom Config.loadBase program }, .accepted)
    else (s, .capacity program.length)
  | .running => (s, .refused)
  | .faulted => (s, .refused)

/-- Run (R262): it starts the run; the steps follow. -/
def doRun (s : State) : State × Response :=
  match s.runState with
  | .halted =>
    ({ s with current := Config.entry, next := Config.entry, runState := .running }, .accepted)
  | .running => (s, .refused)
  | .faulted => (s, .refused)

/-- The Step transaction (R35): a refused step changes no state. -/
def doStep (s : State) : State × Response :=
  match step s with
  | .next t => (t, .accepted)
  | .fault _ => (s, .refused)
  | .refused _ => (s, .refused)

/-- The host appends an integer to the input source (R33, R38). -/
def supplyInput (v : Int) (s : State) : State := { s with input := s.input ++ [v] }

/-- One action of the host, with its response. -/
def act (x : HostAction) (s : State) : State × Response :=
  match x with
  | .reset ra rb rc => (doReset ra rb rc s, .accepted)
  | .load program => doLoad program s
  | .run => doRun s
  | .step => doStep s
  | .supply v => (supplyInput v s, .accepted)

/-- A sequence of actions, the first one first. -/
def actAll : List HostAction → State → State
  | [], s => s
  | x :: xs, s => actAll xs (act x s).1

/-- At most n steps of a run, ending when `run_state` is not Running (R262: "repeatedly executes
`step()` until running becomes false"). R265: there is no step limit, so n is the reader's. -/
def runSteps : Nat → State → State
  | 0, s => s
  | n + 1, s =>
    match s.runState with
    | .running => runSteps n (doStep s).1
    | .halted => s
    | .faulted => s

/-- The hold of R38: Running, `next` addresses an INP instruction, and the input source is empty. -/
def State.holding (s : State) : Bool :=
  decide (s.runState = .running) && s.input.isEmpty &&
    match fetch s with
    | .ok w => decide (decode w = .legal .inp)
    | .error _ => false

/-- What the status port carries (R36). -/
structure Status where
  runState : RunState
  fault : Option Fault
  current : Pointer
  next : Pointer
  a : Word
  b : Word
  c : Word
  deriving DecidableEq, Repr

/-- The status port, read between steps (R36, D32). -/
def State.status (s : State) : Status :=
  { runState := s.runState, fault := s.fault, current := s.current, next := s.next,
    a := s.a, b := s.b, c := s.c }

end Sys2Proof.Machine
end

