-- ==== Sys2Proof/Safety.lean ====
section
/-! DEFINITION. What counts as a sound state, in the terms the statements use: the ranges and
relations that 10_state.md R26 to R28 and 60_exceptions.md R228 give, which the step keeps. -/

namespace Sys2Proof.Safety

open Sys2Proof.Machine

/-- The fault record of a Faulted state accounts for the word at `current`: the fetch beyond the end
of memory (R221), or an illegal word (R223). These are all that a run can reach (20_memory.md
R66). -/
def faultAccounts (s : State) : Prop :=
  (s.fault = some (.addressRange 4096) ∧ s.current.toNat = 4096) ∨
    ∃ w, s.fault = some (.invalidInstruction w) ∧ s.current.toNat < Config.memWords ∧
      s.mem.read s.current.toNat = w ∧ decode w = .illegal w

/-- The machine's invariant. -/
structure SoundState (s : State) : Prop where
  /-- Memory is in its canonical form: cells 0 to 4095, none listed twice (R60). -/
  memory : s.mem.wf = true
  /-- Outside Faulted no fault is recorded and both pointers are in the range R26 gives. -/
  sound : s.runState ≠ .faulted →
    s.fault = none ∧ s.current.toNat ≤ 4095 ∧ s.next.toNat ≤ 4096
  /-- In Faulted the pointer pair is as steps 1 and 2 left it and the fault is accounted for
  (R228). -/
  faulted : s.runState = .faulted →
    s.next.toNat = s.current.toNat + 1 ∧ faultAccounts s

/-- A state that some sequence of host actions reaches from a Reset with some register values. -/
def Reachable (s : State) : Prop :=
  ∃ ra rb rc xs, s = actAll xs (State.resetWith ra rb rc)

end Sys2Proof.Safety
end

