-- ==== Sys2Proof/Certificates/Slice0/Obligations.lean ====
section
/-! DEFINITION. The statements for the provers. Next states are written out field by field, and
results by their own formulas, so that a statement does not lean on the operation it is about. -/

open Sys2Proof
open Sys2Proof.Machine
open Sys2Proof.Safety

/-! ## Encoding -/

/-- Decoding an encoded instruction gives it back, every operand at every value (30_encoding.md R92,
R96; model's encoder). -/
def Obligations.DecodeOfEncodeIsIdentity : Prop :=
  ∀ i : Instr, decode (encode i) = .legal i

/-- Encoding what a legal word decodes to gives the word back: no bit is dropped. -/
def Obligations.EncodeOfDecodeIsIdentity : Prop :=
  ∀ (w : Word) (i : Instr), decode w = .legal i → encode i = w

/-- R92: the pack and unpack functions, and that each undoes the other on the ranges of R91. -/
def Obligations.PackAndUnpackAreInverse : Prop :=
  (∀ o d : Nat, packFields ⟨o, d⟩ = o * 4096 + d) ∧
    (∀ w : Word, unpackFields w = ⟨w.toNat / 4096, w.toNat % 4096⟩ ∧
      (unpackFields w).opcode ≤ 15 ∧ (unpackFields w).data ≤ 4095 ∧
      packFields (unpackFields w) = w.toNat) ∧
    ∀ o d : Nat, o ≤ 15 → d ≤ 4095 →
      packFields ⟨o, d⟩ < 65536 ∧ unpackFields (BitVec.ofNat 16 (packFields ⟨o, d⟩)) = ⟨o, d⟩

/-- A word decodes to an instruction exactly when its data field is not in one of the illegal ranges
of 30_encoding.md R97 (the range of opcode 10 is the spec's decision D17), and an illegal verdict
carries the word. -/
def Obligations.IllegalWordsAreTheListedRanges : Prop :=
  ∀ w : Word,
    (decode w = .illegal w ↔
      (w.toNat / 4096 = 5 ∧ 2 ≤ w.toNat % 4096) ∨ (w.toNat / 4096 = 6 ∧ 3 ≤ w.toNat % 4096) ∨
      (w.toNat / 4096 = 8 ∧ 3 ≤ w.toNat % 4096) ∨ (w.toNat / 4096 = 10 ∧ 4 ≤ w.toNat % 4096) ∨
      (w.toNat / 4096 = 12 ∧ 3 ≤ w.toNat % 4096)) ∧
    ((∃ i, decode w = .legal i) ∨ decode w = .illegal w)

/-- A legal word matches exactly one row of the opcode table, that of its instruction, and an
illegal word matches none. -/
def Obligations.OpcodeTableRowsPartitionLegalWords : Prop :=
  ∀ w : Word,
    (∀ i, decode w = .legal i →
      (opcodeRows.filter fun r => r.covers w).map OpcodeRow.mnemonic = [i.mnemonic]) ∧
    (decode w = .illegal w → (opcodeRows.filter fun r => r.covers w) = [])

/-- Words written out from the spec's encodings decode to the instructions they stand for
(30_encoding.md R103; 95_test_vectors.md). -/
def Obligations.WrittenOutWordsDecode : Prop :=
  decode 0x0FFF#16 = .legal (.hlt 4095#12) ∧ decode 0x1003#16 = .legal (.lda 3#12) ∧
  decode 0x2FFF#16 = .legal (.ldb 4095#12) ∧ decode 0x4FFF#16 = .legal (.sta 4095#12) ∧
  decode 0x5001#16 = .legal .swp1 ∧ decode 0x6002#16 = .legal .adr2 ∧
  decode 0x6003#16 = .illegal 0x6003#16 ∧ decode 0x8000#16 = .legal .sbr0 ∧
  decode 0xA003#16 = .legal .sft3 ∧ decode 0xB123#16 = .legal (.rsv11 291#12) ∧
  decode 0xC000#16 = .legal .inp ∧ decode 0xD007#16 = .legal (.brz 7#12) ∧
  decode 0xFFFF#16 = .legal (.jmp 4095#12)

/-! ## Arithmetic laws -/

/-- R10: `wrap(v)` is the unique word congruent to v modulo 65536, by the formula given, and the
word itself when v is one. -/
def Obligations.WrapIsTheUniqueResidueWord : Prop :=
  (∀ (v : Int) (w : Word), (w.toNat : Int) % 65536 = v % 65536 ↔ w = wrap v) ∧
    (∀ v : Int, ((wrap v).toNat : Int) = ((v % 65536) + 65536) % 65536) ∧
    (∀ w : Word, wrap (w.toNat : Int) = w) ∧
    wrap 65536 = 0#16 ∧ wrap (-1) = 65535#16 ∧ wrap (65535 + 1) = 0#16 ∧ wrap (0 - 1) = 65535#16

/-- R178: the sum written to A, in its two cases, by ADR and ADM; no other effect records the
carry. -/
def Obligations.AdditionWrapsModulo65536 : Prop :=
  (∀ x y : Word,
    (x.toNat + y.toNat ≤ 65535 → (aluAdd x y).toNat = x.toNat + y.toNat) ∧
    (65536 ≤ x.toNat + y.toNat → (aluAdd x y).toNat = x.toNat + y.toNat - 65536) ∧
    aluAdd x y = x + y) ∧
  ∀ (s : State) (addr : DataField),
    exec .adr0 s = .next { s with a := aluAdd s.a s.a, current := s.next, next := s.next + 1#13 } ∧
    exec .adr1 s = .next { s with a := aluAdd s.a s.b, current := s.next, next := s.next + 1#13 } ∧
    exec .adr2 s = .next { s with a := aluAdd s.a s.c, current := s.next, next := s.next + 1#13 } ∧
    exec (.adm addr) s = .next { s with
      a := aluAdd s.a (s.mem.read addr.toNat), current := s.next, next := s.next + 1#13 }

/-- R179: the difference written to A, in its two cases, by SBR and SBM, and the hardware's
`a + (65535 - b) + 1`; no other effect records the borrow. -/
def Obligations.SubtractionWrapsModulo65536 : Prop :=
  (∀ x y : Word,
    (y.toNat ≤ x.toNat → (aluSub x y).toNat = x.toNat - y.toNat) ∧
    (x.toNat < y.toNat → (aluSub x y).toNat = x.toNat + 65536 - y.toNat) ∧
    aluSub x y = x + (65535#16 - y) + 1#16) ∧
  ∀ (s : State) (addr : DataField),
    exec .sbr0 s = .next { s with a := aluSub s.a s.a, current := s.next, next := s.next + 1#13 } ∧
    exec .sbr1 s = .next { s with a := aluSub s.a s.b, current := s.next, next := s.next + 1#13 } ∧
    exec .sbr2 s = .next { s with a := aluSub s.a s.c, current := s.next, next := s.next + 1#13 } ∧
    exec (.sbm addr) s = .next { s with
      a := aluSub s.a (s.mem.read addr.toNat), current := s.next, next := s.next + 1#13 }

/-- The shift laws of 44_shift.md R189, which rest on the spec's decision D33 (entry 14): the amount
is the whole register value, bits moved out are lost, zeros enter, and 16 or more gives 0. -/
def Obligations.ShiftAmountIsTakenWhole : Prop :=
  ∀ x y : Word,
    (aluShift .left x y).toNat = x.toNat * 2 ^ y.toNat % 65536 ∧
    (aluShift .right x y).toNat = x.toNat / 2 ^ y.toNat ∧
    (y = 0#16 → aluShift .left x y = x ∧ aluShift .right x y = x) ∧
    (16 ≤ y.toNat → aluShift .left x y = 0#16 ∧ aluShift .right x y = 0#16) ∧
    aluShift .left x y = barrelShift .left x y ∧ aluShift .right x y = barrelShift .right x y

/-! ## The instructions -/

/-- R170 to R172: ADR doubles A or adds B or C to it, and changes nothing but A and the pointer
pair. -/
def Obligations.AddRegisterWritesWrappedSum : Prop :=
  (∀ w, decode w = .legal .adr0 ↔ w = 0x6000#16) ∧
  (∀ w, decode w = .legal .adr1 ↔ w = 0x6001#16) ∧
  (∀ w, decode w = .legal .adr2 ↔ w = 0x6002#16) ∧
  ∀ s : State,
    exec .adr0 s = .next { s with
      a := BitVec.ofNat 16 ((s.a.toNat + s.a.toNat) % 65536)
      current := s.next, next := s.next + 1#13 } ∧
    exec .adr1 s = .next { s with
      a := BitVec.ofNat 16 ((s.a.toNat + s.b.toNat) % 65536)
      current := s.next, next := s.next + 1#13 } ∧
    exec .adr2 s = .next { s with
      a := BitVec.ofNat 16 ((s.a.toNat + s.c.toNat) % 65536)
      current := s.next, next := s.next + 1#13 }

/-- R173: ADM adds the addressed word to A; memory and all else stay. -/
def Obligations.AddMemoryWritesWrappedSum : Prop :=
  ∀ addr : DataField,
    decode (BitVec.ofNat 16 (0x7000 + addr.toNat)) = .legal (.adm addr) ∧
    ∀ s : State, exec (.adm addr) s = .next { s with
      a := BitVec.ofNat 16 ((s.a.toNat + (s.mem.read addr.toNat).toNat) % 65536)
      current := s.next, next := s.next + 1#13 }

/-- R174 to R176: SBR clears A or subtracts B or C from it, and changes nothing but A and the
pointer pair. -/
def Obligations.SubtractRegisterWritesWrappedDifference : Prop :=
  (∀ w, decode w = .legal .sbr0 ↔ w = 0x8000#16) ∧
  (∀ w, decode w = .legal .sbr1 ↔ w = 0x8001#16) ∧
  (∀ w, decode w = .legal .sbr2 ↔ w = 0x8002#16) ∧
  ∀ s : State,
    exec .sbr0 s = .next { s with a := 0#16, current := s.next, next := s.next + 1#13 } ∧
    exec .sbr1 s = .next { s with
      a := BitVec.ofNat 16 ((s.a.toNat + 65536 - s.b.toNat) % 65536)
      current := s.next, next := s.next + 1#13 } ∧
    exec .sbr2 s = .next { s with
      a := BitVec.ofNat 16 ((s.a.toNat + 65536 - s.c.toNat) % 65536)
      current := s.next, next := s.next + 1#13 }

/-- R177: SBM subtracts the addressed word from A; memory and all else stay. -/
def Obligations.SubtractMemoryWritesWrappedDifference : Prop :=
  ∀ addr : DataField,
    decode (BitVec.ofNat 16 (0x9000 + addr.toNat)) = .legal (.sbm addr) ∧
    ∀ s : State, exec (.sbm addr) s = .next { s with
      a := BitVec.ofNat 16 ((s.a.toNat + 65536 - (s.mem.read addr.toNat).toNat) % 65536)
      current := s.next, next := s.next + 1#13 }

/-- SFT, with the selector polarities and the amount of the spec's decisions D15, D16 and D33
(entries 12, 14): A shifted left by B or C, right by B or C, and nothing else but the pointer pair
changes. That each form has the one word named, and no word with a higher data bit set, is the
decision D17 (44_shift.md section 3; entry 13). -/
def Obligations.ShiftWritesShiftedAccumulator : Prop :=
  (∀ w, decode w = .legal .sft0 ↔ w = 0xA000#16) ∧
  (∀ w, decode w = .legal .sft1 ↔ w = 0xA001#16) ∧
  (∀ w, decode w = .legal .sft2 ↔ w = 0xA002#16) ∧
  (∀ w, decode w = .legal .sft3 ↔ w = 0xA003#16) ∧
  ∀ s : State,
    exec .sft0 s = .next { s with
      a := BitVec.ofNat 16 (s.a.toNat * 2 ^ s.b.toNat % 65536)
      current := s.next, next := s.next + 1#13 } ∧
    exec .sft1 s = .next { s with
      a := BitVec.ofNat 16 (s.a.toNat * 2 ^ s.c.toNat % 65536)
      current := s.next, next := s.next + 1#13 } ∧
    exec .sft2 s = .next { s with
      a := BitVec.ofNat 16 (s.a.toNat / 2 ^ s.b.toNat)
      current := s.next, next := s.next + 1#13 } ∧
    exec .sft3 s = .next { s with
      a := BitVec.ofNat 16 (s.a.toNat / 2 ^ s.c.toNat)
      current := s.next, next := s.next + 1#13 }

/-- R150 to R152: a load writes its one register with the addressed word; no fault, and nothing else
but the pointer pair changes. A cell never written since Reset gives 0, and B and C get values from
their load and SWP only. -/
def Obligations.LoadsWriteTheirRegister : Prop :=
  (∀ addr : DataField,
    decode (BitVec.ofNat 16 (0x1000 + addr.toNat)) = .legal (.lda addr) ∧
    decode (BitVec.ofNat 16 (0x2000 + addr.toNat)) = .legal (.ldb addr) ∧
    decode (BitVec.ofNat 16 (0x3000 + addr.toNat)) = .legal (.ldc addr) ∧
    ∀ s : State,
      exec (.lda addr) s = .next { s with
        a := s.mem.read addr.toNat, current := s.next, next := s.next + 1#13 } ∧
      exec (.ldb addr) s = .next { s with
        b := s.mem.read addr.toNat, current := s.next, next := s.next + 1#13 } ∧
      exec (.ldc addr) s = .next { s with
        c := s.mem.read addr.toNat, current := s.next, next := s.next + 1#13 }) ∧
  (∀ (ra rb rc : Word) (k : Nat), (State.resetWith ra rb rc).mem.read k = 0#16) ∧
  ∀ (i : Instr) (s t : State), exec i s = .next t →
    (t.b ≠ s.b → (∃ addr, i = .ldb addr) ∨ i = .swp0) ∧
    (t.c ≠ s.c → (∃ addr, i = .ldc addr) ∨ i = .swp1)

/-- R153: STA stores A at the 12-bit address, leaves every other cell and all other state but the
pointer pair, and is the only instruction that writes memory. -/
def Obligations.StoreWritesTheAddressedCell : Prop :=
  (∀ (addr : DataField) (s : State),
    decode (BitVec.ofNat 16 (0x4000 + addr.toNat)) = .legal (.sta addr) ∧
    ∃ m : Memory,
      exec (.sta addr) s = .next { s with mem := m, current := s.next, next := s.next + 1#13 } ∧
      m.read addr.toNat = s.a ∧ ∀ k, k ≠ addr.toNat → m.read k = s.mem.read k) ∧
  ∀ (i : Instr) (s t : State), exec i s = .next t → t.mem ≠ s.mem → ∃ addr, i = .sta addr

/-- R160, R161: SWP exchanges A with B or C, both read before either is written, and changes nothing
else but the pointer pair. -/
def Obligations.SwapExchangesTwoRegisters : Prop :=
  (∀ w, decode w = .legal .swp0 ↔ w = 0x5000#16) ∧
  (∀ w, decode w = .legal .swp1 ↔ w = 0x5001#16) ∧
  ∀ s : State,
    exec .swp0 s = .next { s with
      a := s.b, b := s.a, current := s.next, next := s.next + 1#13 } ∧
    exec .swp1 s = .next { s with
      a := s.c, c := s.a, current := s.next, next := s.next + 1#13 }

/-- R140: HLT with any data halts and changes nothing else but the pointer pair, at address 4095 too;
no step follows until Run, which starts at address 0 with registers and memory as they were left; the
assembler's `HLT` is the word 0; and no other instruction ends a run without a fault. -/
def Obligations.HaltEndsTheRun : Prop :=
  (∀ (d : DataField) (s : State),
    decode (BitVec.ofNat 16 d.toNat) = .legal (.hlt d) ∧
    exec (.hlt d) s = .next { s with
      runState := .halted, current := s.next, next := s.next + 1#13 } ∧
    ∀ t : State, exec (.hlt d) s = .next t →
      (¬ ∃ u, step t = .next u) ∧
      ∃ u, doRun t = (u, .accepted) ∧ u.runState = .running ∧ u.next = 0#13 ∧ u.a = s.a ∧
        u.b = s.b ∧ u.c = s.c ∧ u.mem = s.mem) ∧
  build "HLT" = .ok [0x0000#16] ∧
  ∀ (i : Instr) (s t : State), s.runState = .running → exec i s = .next t →
    t.runState = .halted → ∃ d, i = .hlt d

/-- RSV11 with any data, by the spec's decision D18 (entry 15), changes nothing but the pointer
pair. -/
def Obligations.ReservedOpcodeDoesNothing : Prop :=
  ∀ (d : DataField) (s : State),
    decode (BitVec.ofNat 16 (0xB000 + d.toNat)) = .legal (.rsv11 d) ∧
    exec (.rsv11 d) s = .next { s with current := s.next, next := s.next + 1#13 }

/-- INP with an integer at the front of the input source writes its residue to A and takes exactly
that one (45_io.md, with the spec's decision D19; the source in State is entry 6). -/
def Obligations.InputWritesTheFrontInteger : Prop :=
  (∀ w, decode w = .legal .inp ↔ w = 0xC000#16) ∧
  ∀ (s : State) (v : Int) (rest : List Int), s.input = v :: rest →
    exec .inp s = .next { s with
      a := BitVec.ofNat 16 (v % 65536).toNat, input := rest
      current := s.next, next := s.next + 1#13 }

/-- The hold of 10_state.md section 8 (decision D19, entry 7): with the input source empty a step at
an INP changes nothing, and supplying an integer lets the step run whole. -/
def Obligations.InputHoldsUntilSupplied : Prop :=
  ∀ s : State, s.runState = .running → s.next.toNat < 4096 →
    decode (s.mem.read s.next.toNat) = .legal .inp → s.input = [] →
    s.holding = true ∧ step s = .next s ∧
    ∀ v : Int, step (supplyInput v s) = .next { s with
      a := BitVec.ofNat 16 (v % 65536).toNat, current := s.next, next := s.next + 1#13 }

/-- OUT and OTC append one event with the value of A and change nothing else but the pointer pair
(45_io.md, with the spec's decision D20; entry 8). -/
def Obligations.OutputAppendsOneEvent : Prop :=
  (∀ w, decode w = .legal .out ↔ w = 0xC001#16) ∧
  (∀ w, decode w = .legal .otc ↔ w = 0xC002#16) ∧
  ∀ s : State,
    exec .out s = .next { s with
      output := s.output ++ [⟨.num, s.a⟩], current := s.next, next := s.next + 1#13 } ∧
    exec .otc s = .next { s with
      output := s.output ++ [⟨.chr, s.a⟩], current := s.next, next := s.next + 1#13 }

/-- R205: BRZ redirects `next` exactly when all 16 bits of A are zero, and changes nothing else but
`current`. -/
def Obligations.BranchIfZeroTestsTheWholeAccumulator : Prop :=
  ∀ (addr : DataField) (s : State),
    decode (BitVec.ofNat 16 (0xD000 + addr.toNat)) = .legal (.brz addr) ∧
    (s.a = 0#16 → exec (.brz addr) s = .next { s with
      current := s.next, next := addr.setWidth 13 }) ∧
    (s.a ≠ 0#16 → exec (.brz addr) s = .next { s with
      current := s.next, next := s.next + 1#13 })

/-- BRP redirects for every value of A (46_branch.md, with the spec's decision D23; entry 16), exactly
as JMP. -/
def Obligations.BranchIfAtLeastZeroIsAlwaysTaken : Prop :=
  ∀ (addr : DataField) (s : State),
    decode (BitVec.ofNat 16 (0xE000 + addr.toNat)) = .legal (.brp addr) ∧
    exec (.brp addr) s = .next { s with current := s.next, next := addr.setWidth 13 } ∧
    exec (.brp addr) s = exec (.jmp addr) s

/-- R207: JMP writes `next` and, beside `current`, nothing else; to its own address it loops without
changing any other state. -/
def Obligations.JumpWritesNext : Prop :=
  ∀ (addr : DataField) (s : State),
    decode (BitVec.ofNat 16 (0xF000 + addr.toNat)) = .legal (.jmp addr) ∧
    exec (.jmp addr) s = .next { s with current := s.next, next := addr.setWidth 13 } ∧
    (s.next = addr.setWidth 13 → exec (.jmp addr) s = .next { s with current := s.next })

/-! ## Frames over all instructions -/

/-- The register-file multiplexer of 10_state.md: which instructions write B, which C, and which
leave A. -/
def Obligations.OnlyNamedInstructionsWriteRegisters : Prop :=
  ∀ (i : Instr) (s t : State), exec i s = .next t →
    (t.b ≠ s.b → (∃ addr, i = .ldb addr) ∨ i = .swp0) ∧
    (t.c ≠ s.c → (∃ addr, i = .ldc addr) ∨ i = .swp1) ∧
    (t.a ≠ s.a → i ≠ .out ∧ i ≠ .otc ∧
      ∀ d, i ≠ .hlt d ∧ i ≠ .ldb d ∧ i ≠ .ldc d ∧ i ≠ .sta d ∧ i ≠ .rsv11 d ∧ i ≠ .brz d ∧
        i ≠ .brp d ∧ i ≠ .jmp d)

/-- No instruction faults or refuses, and only HLT changes the run state, none the fault record, only
INP the input source, only OUT and OTC the output trace. The next state of an INP that finds the
input source empty is the hold, in which it has not completed (decision D19, entry 7); the form of
the events is the decision D20 (entry 8). -/
def Obligations.OnlyNamedInstructionsChangeControlState : Prop :=
  ∀ (i : Instr) (s : State), ∃ t, exec i s = .next t ∧
    t.fault = s.fault ∧
    (t.runState ≠ s.runState → ∃ d, i = .hlt d) ∧
    (t.input ≠ s.input → i = .inp ∧ ∃ v, s.input = v :: t.input) ∧
    (t.output ≠ s.output → (i = .out ∧ t.output = s.output ++ [⟨.num, s.a⟩]) ∨
      (i = .otc ∧ t.output = s.output ++ [⟨.chr, s.a⟩]))

/-- A step changes a cell only by running a STA to its address, and then the cell holds A. -/
def Obligations.StepChangesOnlyTheStoredCell : Prop :=
  ∀ (s t : State) (k : Nat), step s = .next t → t.mem.read k ≠ s.mem.read k →
    ∃ addr : DataField, s.next.toNat < 4096 ∧
      decode (s.mem.read s.next.toNat) = .legal (.sta addr) ∧ k = addr.toNat ∧
      t.mem.read k = s.a

/-- The pointer pair after every step of a running core (46_branch.md section 1). A step that does not
hold leaves the step's address in `current`, and in `next` the data field for a taken BRZ, a BRP
(decision D23, entry 16) and a JMP, and `current + 1` for every other instruction. A step that
faults, on its fetch or on an illegal word, leaves `current + 1` too (decision D10, entry 9). A core
that holds on INP keeps both (decision D19; that the hold is a step is entry 7). -/
def Obligations.RedirectLogicFormsNext : Prop :=
  ∀ s : State, s.runState = .running → ∃ t, step s = .next t ∧
    (s.holding = true → t = s) ∧
    (s.holding = false → t.current = s.next ∧
      (∀ f, fetch s = .error f → t.next = s.next + 1#13) ∧
      ∀ w, fetch s = .ok w → t.next = match decode w with
        | .legal (.brz addr) => if s.a = 0#16 then addr.setWidth 13 else s.next + 1#13
        | .legal (.brp addr) => addr.setWidth 13
        | .legal (.jmp addr) => addr.setWidth 13
        | _ => s.next + 1#13)

/-- After a store the next fetch of its address returns the word stored, and the fetch of any other
address what it returned before: no instruction-memory hazard (20_memory.md section 5). -/
def Obligations.StoredWordIsWhatTheNextFetchReturns : Prop :=
  ∀ (s t : State) (addr : DataField), s.runState = .running → s.next.toNat < 4096 →
    decode (s.mem.read s.next.toNat) = .legal (.sta addr) → step s = .next t →
    ∀ p : Pointer,
      (p = addr.setWidth 13 → fetch { t with next := p } = .ok s.a) ∧
      (p ≠ addr.setWidth 13 → fetch { t with next := p } = fetch { s with next := p })

/-! ## Memory access -/

/-- R64: a read at an address from 0 to 4095 answers the cell, any other integer raises
`AddressRange`. -/
def Obligations.MemoryReadValidatesItsAddress : Prop :=
  ∀ (m : Memory) (addr : Int),
    (0 ≤ addr ∧ addr ≤ 4095 → memRead m addr = .ok (m.read addr.toNat)) ∧
    (¬ (0 ≤ addr ∧ addr ≤ 4095) → memRead m addr = .error (.addressRange addr))

/-- A write checks the address, then the value (the order is the spec's decision D29, entry 20), and
otherwise changes that cell only and keeps the canonical form (entry 1). -/
def Obligations.MemoryWriteChangesOneCell : Prop :=
  ∀ (m : Memory) (addr v : Int),
    (¬ (0 ≤ addr ∧ addr ≤ 4095) → memWrite m addr v = .error (.addressRange addr)) ∧
    (0 ≤ addr ∧ addr ≤ 4095 → ¬ (0 ≤ v ∧ v ≤ 65535) →
      memWrite m addr v = .error (.valueRange addr v)) ∧
    (0 ≤ addr ∧ addr ≤ 4095 → 0 ≤ v ∧ v ≤ 65535 →
      ∃ m', memWrite m addr v = .ok m' ∧ ((m'.read addr.toNat).toNat : Int) = v ∧
        (∀ k, k ≠ addr.toNat → m'.read k = m.read k) ∧ (m.wf = true → m'.wf = true))

/-- Two memories in canonical form that read alike everywhere are the same data (the model's form,
entry 1). -/
def Obligations.CanonicalMemoriesReadingAlikeAreEqual : Prop :=
  ∀ m m' : Memory, m.wf = true → m'.wf = true → (∀ k, m.read k = m'.read k) → m = m'

/-! ## The step and its faults -/

/-- A running core whose `next` names a cell with an instruction's word runs that instruction:
`step` adds nothing around `exec`, which moves the pointer pair itself (entry 11). -/
def Obligations.StepRunsTheDecodedInstruction : Prop :=
  ∀ (s : State) (i : Instr), s.runState = .running → s.next.toNat < 4096 →
    decode (s.mem.read s.next.toNat) = .legal i → step s = exec i s

/-- A step answers a next state exactly when the core is Running, and is refused otherwise (the
refusal is the spec's decision D11; entry 10); it never answers a fault outcome (entry 9). A core
that holds on INP is Running, and that it answers the same state as next state is the model's form
of the decision D19 (entry 7). -/
def Obligations.StepAnswersNextExactlyWhenRunning : Prop :=
  ∀ s : State, (s.runState = .running ↔ ∃ t, step s = .next t) ∧
    (s.runState ≠ .running → step s = .refused .stepNotRunning)

/-- An illegal word faults: the record, Faulted and the pointer pair are written, and nothing else
(30_encoding.md section 4; fault entry is the spec's decisions D8 and D10, the range of opcode 10
D17). -/
def Obligations.IllegalWordFaultsWithNoOtherEffect : Prop :=
  ∀ (s : State) (w : Word), s.runState = .running → s.next.toNat < 4096 →
    s.mem.read s.next.toNat = w →
    ((w.toNat / 4096 = 5 ∧ 2 ≤ w.toNat % 4096) ∨ (w.toNat / 4096 = 6 ∧ 3 ≤ w.toNat % 4096) ∨
      (w.toNat / 4096 = 8 ∧ 3 ≤ w.toNat % 4096) ∨ (w.toNat / 4096 = 10 ∧ 4 ≤ w.toNat % 4096) ∨
      (w.toNat / 4096 = 12 ∧ 3 ≤ w.toNat % 4096)) →
    step s = .next { s with
      fault := some (.invalidInstruction w), runState := .faulted
      current := s.next, next := s.next + 1#13 }

/-- A fetch at 4096, one past the last cell, faults with `AddressRange(4096)` and does not wrap
(60_exceptions.md section 1, with the spec's decisions D6, D8 and D10). -/
def Obligations.FetchPastTheLastCellFaults : Prop :=
  ∀ s : State, s.runState = .running → s.next = 4096#13 →
    step s = .next { s with
      fault := some (.addressRange 4096), runState := .faulted
      current := 4096#13, next := 4097#13 }

/-- Faults are precise: a step that ends in Faulted changed only the fault record, the run state and
the pointer pair (60_exceptions.md section 4). The state Faulted, the record and the pointer pair
are the spec's decisions D8 and D10 (entry 9). -/
def Obligations.FaultingStepChangesNoData : Prop :=
  ∀ s t : State, step s = .next t → t.runState = .faulted →
    t = { s with
      fault := t.fault, runState := .faulted, current := s.next, next := s.next + 1#13 } ∧
    ∃ f, t.fault = some f

/-- From a sound state the only memory fault a step can record is `AddressRange(4096)` of a fetch; it
never records `ValueRange` (20_memory.md section 2; the record and the pointer that reaches 4096 are
the spec's decisions D8 and D6, entries 9 and 5). -/
def Obligations.OnlyReachableMemoryFaultIsTheFetch : Prop :=
  ∀ s t : State, SoundState s → step s = .next t →
    (∀ x, t.fault = some (.addressRange x) → x = 4096 ∧ s.next = 4096#13) ∧
    ∀ x v, t.fault ≠ some (.valueRange x v)

/-! ## Invariants -/

/-- The state after Reset meets the invariant, whatever words A, B and C take (decision D4, entry 3;
the pointers are 0 by D5, entry 4). -/
def Obligations.ResetMeetsTheInvariant : Prop :=
  (∀ ra rb rc : Word, SoundState (State.resetWith ra rb rc)) ∧ SoundState State.reset

/-- Every step keeps the invariant: memory canonical (entry 1), pointers in the range of the decision
D6 (entry 5), a fault recorded exactly in Faulted and accounted for (decisions D8 and D10, entry
9). -/
def Obligations.EveryStepKeepsTheInvariant : Prop :=
  ∀ s t : State, SoundState s → step s = .next t → SoundState t

/-- Every host action keeps the invariant, Reset, Load, Run, Step and the supply of input alike, with
whatever response (70_reset_and_hazards.md sections 1 to 3; entries 1, 5 and 9, as in
`EveryStepKeepsTheInvariant`; the actions are entry 25). -/
def Obligations.EveryHostActionKeepsTheInvariant : Prop :=
  ∀ (x : HostAction) (s : State), SoundState s → SoundState (act x s).1

/-- Every state that host actions reach from a Reset meets the invariant (entries 1, 5 and 9, as in
`EveryStepKeepsTheInvariant`; the actions are entry 25). -/
def Obligations.EveryReachableStateMeetsTheInvariant : Prop :=
  ∀ s : State, Reachable s → SoundState s

/-! ## The two designs -/

/-- The datapath driven by the decoder's control outputs (30_encoding.md section 5) does what the
instruction rules say, for every fetched word and state. The control table and the sub-blocks are
the spec's decision D3, and the zeros on unused outputs the model's choice (entry 21). -/
def Obligations.DatapathAgreesWithTheInstructionRules : Prop :=
  ∀ (w : Word) (s : State), datapath (controlOf (decode w)) s = execWord w s

/-! ## The host's transactions -/

/-- Reset from any state (10_state.md section 10, 70_reset_and_hazards.md section 1): memory 0,
Halted, no fault, pointers 0 (decision D5), output empty, A, B and C at any words given (decision
D4); the host's input source stays (entry 19). -/
def Obligations.ResetSetsEveryPieceOfState : Prop :=
  ∀ (ra rb rc : Word) (s : State),
    ((doReset ra rb rc s).a = ra ∧ (doReset ra rb rc s).b = rb ∧ (doReset ra rb rc s).c = rc) ∧
    (doReset ra rb rc s).current = 0#13 ∧ (doReset ra rb rc s).next = 0#13 ∧
    (doReset ra rb rc s).runState = .halted ∧ (doReset ra rb rc s).fault = none ∧
    (∀ k, (doReset ra rb rc s).mem.read k = 0#16) ∧ (doReset ra rb rc s).output = [] ∧
    (doReset ra rb rc s).input = s.input

/-- Load copies n words to cells 0 to n - 1 and leaves the rest (decision D12), or reports
`Capacity(n)` above 4096 words and copies nothing (70_reset_and_hazards.md section 2). -/
def Obligations.LoadCopiesTheProgramOrReportsCapacity : Prop :=
  ∀ (program : List Word) (s : State), s.runState = .halted →
    (4096 < program.length → doLoad program s = (s, .capacity program.length)) ∧
    (program.length ≤ 4096 → ∃ m : Memory, doLoad program s = ({ s with mem := m }, .accepted) ∧
      (∀ k (h : k < program.length), m.read k = program[k]) ∧
      ∀ k, program.length ≤ k → m.read k = s.mem.read k)

/-- Run sets `next` and, by the spec's decision D7, `current` to 0 and the run state to Running, and
changes nothing else (70_reset_and_hazards.md section 3). -/
def Obligations.RunStartsAtAddressZero : Prop :=
  ∀ s : State, s.runState = .halted →
    doRun s = ({ s with current := 0#13, next := 0#13, runState := .running }, .accepted)

/-- A transaction outside its precondition is refused and changes no state (the spec's decision D11):
Load and Run unless Halted, Step unless Running. -/
def Obligations.TransactionsOutsideTheirPreconditionAreRefused : Prop :=
  ∀ (program : List Word) (s : State),
    (s.runState ≠ .halted → doLoad program s = (s, .refused) ∧ doRun s = (s, .refused)) ∧
    (s.runState ≠ .running → doStep s = (s, .refused))

/-- R23: neither Load nor Run changes A, B or C, in any state. -/
def Obligations.LoadAndRunKeepTheRegisters : Prop :=
  ∀ (program : List Word) (s : State),
    ((doLoad program s).1.a = s.a ∧ (doLoad program s).1.b = s.b ∧
      (doLoad program s).1.c = s.c) ∧
    (doRun s).1.a = s.a ∧ (doRun s).1.b = s.b ∧ (doRun s).1.c = s.c

/-- The output trace only grows: no sequence of host actions without a Reset removes or changes an
event (45_io.md section on the output port, decision D20). -/
def Obligations.OutputTraceOnlyGrows : Prop :=
  ∀ (xs : List HostAction) (s : State), (∀ ra rb rc, HostAction.reset ra rb rc ∉ xs) →
    ∃ es, (actAll xs s).output = s.output ++ es

/-- A run is the machine's steps, one after another (70_reset_and_hazards.md sections 3 and 5): n + 1
steps are one `step` and n more; n steps leave what n Step transactions leave, so a run that has
ended stays as it ended (refused steps: decision D11, entry 10); and a run that is no longer Running
ended in one step, which ran HLT and left Halted, or found no cell or no instruction and left
Faulted with a fault recorded (decisions D8 and D10, entry 9). The bound n is the model's (entry
25), and a held step counts (entry 7). -/
def Obligations.RunTakesTheMachinesSteps : Prop :=
  ∀ (n : Nat) (s : State),
    (∀ t, s.runState = .running → step s = .next t → runSteps (n + 1) s = runSteps n t) ∧
    runSteps n s = actAll (List.replicate n .step) s ∧
    (s.runState = .running → (runSteps n s).runState ≠ .running →
      ∃ (k : Nat) (u : State), k < n ∧ u = runSteps k s ∧ u.runState = .running ∧
        step u = .next (runSteps n s) ∧
        (((runSteps n s).runState = .halted ∧ u.next.toNat < 4096 ∧
            ∃ d, decode (u.mem.read u.next.toNat) = .legal (.hlt d)) ∨
          ((runSteps n s).runState = .faulted ∧ (∃ f, (runSteps n s).fault = some f) ∧
            (4096 ≤ u.next.toNat ∨ ∃ w, decode (u.mem.read u.next.toNat) = .illegal w))))

/-- Faulted is left only by Reset (10_state.md section 3, 60_exceptions.md section 5, by the spec's
decisions D8 and D11; entries 9 and 10): no sequence of other host actions changes anything but the
host's own input source, to which it may append (entry 6), and a Reset leaves Halted with no fault
recorded. -/
def Obligations.FaultedIsLeftOnlyByReset : Prop :=
  ∀ s : State, s.runState = .faulted →
    (∀ xs : List HostAction, (∀ ra rb rc, HostAction.reset ra rb rc ∉ xs) →
      ∃ vs, actAll xs s = { s with input := s.input ++ vs }) ∧
    ∀ ra rb rc : Word, (act (.reset ra rb rc) s).1.runState = .halted ∧
      (act (.reset ra rb rc) s).1.fault = none

/-! ## The assembler's contract -/

/-- Assembly emits exactly one word for each retained line (30_encoding.md section 7). -/
def Obligations.AssemblerEmitsOneWordPerRetainedLine : Prop :=
  ∀ (source : List Char) (ws : List Word),
    assemble source = .ok ws → ws.length = (retainedLines source).length

/-- The first pass (30_encoding.md section 7): line k of its result is the k-th retained line of the
source, counted from 0, whatever blank and comment lines stand between: its tokens are the label, if
it has one, the mnemonic and the operand, if it has one. A name is in the label table with k exactly
when line k declares it, and no two lines declare one name (decision D27). The token forms are the
spec's decision D25 and the model's conventions of entry 22. -/
def Obligations.LabelsResolveToRetainedLineNumbers : Prop :=
  ∀ (source : List Char) (lines : List AsmLine) (labels : LabelTable),
    firstPass 1 0 [] (splitLines source) = .ok (lines, labels) →
    lines.length = (retainedLines source).length ∧
    (∀ (k : Nat) (x : AsmLine), lines[k]? = some x →
      ∃ l mnemonic operands, (retainedLines source)[k]? = some l ∧
        lineTokens l = x.label.toList ++ mnemonic :: operands ∧
        mnemonicOf mnemonic = some x.entry ∧
        (∀ name, x.label = some name → mnemonicOf name = none) ∧
        ((operands = [] ∧ x.operand = .absent) ∨
          ∃ token, operands = [token] ∧ parseOperand token = some x.operand)) ∧
    (∀ name k, labels.lookup name = some k ↔ ∃ x, lines[k]? = some x ∧ x.label = some name) ∧
    ∀ (j k : Nat) (x y : AsmLine) (name : List Char),
      lines[j]? = some x → lines[k]? = some y → x.label = some name →
      y.label = some name → j = k

/-- The emitted word holds the mnemonic's opcode and the operand (or the fixed data, ignoring an
operand in range), a DAT's value is emitted directly, and an operand out of range is a RangeError
(30_encoding.md section 7, with the spec's decisions D24 and D26). That the ignored operand of a
mnemonic with fixed data is range checked too is the model's choice (entry 22). -/
def Obligations.EmittedWordHoldsOpcodeAndOperand : Prop :=
  ∀ (line opcode data operand : Nat), opcode ≤ 15 → data ≤ 4095 →
    (operand ≤ 4095 →
      (∃ w, emitWord line (.plain opcode) operand = .ok w ∧ unpackFields w = ⟨opcode, operand⟩) ∧
      (∃ w, emitWord line (.fixed opcode data) operand = .ok w ∧
        unpackFields w = ⟨opcode, data⟩)) ∧
    (4095 < operand →
      emitWord line (.plain opcode) operand = .error (.rangeError line) ∧
      emitWord line (.fixed opcode data) operand = .error (.rangeError line)) ∧
    (operand ≤ 65535 → ∃ w, emitWord line .dat operand = .ok w ∧ w.toNat = operand) ∧
    (65535 < operand → emitWord line .dat operand = .error (.rangeError line))
end

