-- ==== Sys2Proof/Laws/Decode.lean ====
section
/-! SUPPORT. The fields of a packed word, and what the decoder's illegal verdict carries. -/

namespace Sys2Proof

/-- The opcode field of a packed word (30_encoding.md R91). -/
@[simp] theorem opcodeOf_packWord (op : Opcode) (d : DataField) :
    opcodeOf (packWord op d) = op := by
  ext k hk
  have h16 : 12 + k < 16 := by omega
  simp [opcodeOf, packWord, h16, BitVec.getLsbD_eq_getElem hk]

/-- The data field of a packed word (30_encoding.md R91). -/
@[simp] theorem dataOf_packWord (op : Opcode) (d : DataField) : dataOf (packWord op d) = d := by
  ext k hk
  simp [dataOf, packWord, hk, show k < 16 by omega]

/-- The decoder's illegal verdict carries the word it was given (30_encoding.md R97). -/
theorem decode_illegal_word {w v : Word} (h : decode w = .illegal v) : v = w := by
  unfold decode at h
  split at h <;> first
    | exact (Decoded.illegal.inj h).symm
    | exact absurd h (by simp)
    | (simp only [decodeSwap, decodeAddRegister, decodeSubtractRegister, decodeShift,
        decodeInputOutput] at h
       split at h <;> first
        | exact (Decoded.illegal.inj h).symm
        | exact absurd h (by simp))

end Sys2Proof
end

