-- ==== Sys2Proof/Laws/Memory.lean ====
section
/-! SUPPORT. The laws of memory: a read after a write, the canonical form, and that every operation
keeps it (20_memory.md R60, R64, R65, R68). -/

namespace Sys2Proof.Machine

/-- The size of memory as a numeral, for arithmetic. -/
theorem memWords_eq : Config.memWords = 4096 := rfl

@[simp] theorem Memory.read_nil (k : Nat) : Memory.read [] k = 0#16 := rfl

theorem Memory.read_erase (m : Memory) (addr k : Nat) :
    (m.erase addr).read k = if k = addr then 0#16 else m.read k := by
  induction m with
  | nil => simp [Memory.erase]
  | cons cell m ih =>
    obtain ⟨j, v⟩ := cell
    by_cases hj : addr = j <;> by_cases hk : k = j <;> by_cases ha : k = addr <;>
      simp_all [Memory.erase, Memory.read]

theorem Memory.read_insert (m : Memory) (addr k : Nat) (x : Word)
    (h : m.read addr = 0#16) (hk : ∀ v, (addr, v) ∉ m) :
    (m.insert addr x).read k = if k = addr then x else m.read k := by
  induction m with
  | nil => simp [Memory.insert, Memory.read]
  | cons cell m ih =>
    obtain ⟨j, v⟩ := cell
    have hj : addr ≠ j := fun e => hk v (by simp [e])
    have hm : ∀ v, (addr, v) ∉ m := fun v hv => hk v (by simp [hv])
    simp only [Memory.read, hj, if_false] at h
    by_cases hlt : addr < j
    · simp [Memory.insert, hlt, Memory.read]
    · by_cases hkj : k = j
      · simp [Memory.insert, hlt, Memory.read, hkj, Ne.symm hj]
      · simp [Memory.insert, hlt, Memory.read, hkj, ih h hm]

theorem Memory.not_mem_erase (m : Memory) (addr : Nat) (v : Word) : (addr, v) ∉ m.erase addr := by
  induction m with
  | nil => simp [Memory.erase]
  | cons cell m ih =>
    obtain ⟨j, x⟩ := cell
    by_cases hj : addr = j <;> simp_all [Memory.erase]

/-- A read after a write: the value written at its address, the old one elsewhere. -/
theorem Memory.read_write (m : Memory) (addr k : Nat) (x : Word) :
    (m.write addr x).read k = if k = addr then x else m.read k := by
  by_cases hx : x = 0#16
  · simp [Memory.write, hx, Memory.read_erase]
  · rw [Memory.write, if_neg hx,
      Memory.read_insert _ _ _ _ (by simp [Memory.read_erase]) (fun v => Memory.not_mem_erase m addr v),
      Memory.read_erase]
    by_cases hk : k = addr <;> simp [hk]

theorem Memory.read_write_same (m : Memory) (addr : Nat) (x : Word) :
    (m.write addr x).read addr = x := by simp [Memory.read_write]

theorem Memory.read_write_other (m : Memory) (addr k : Nat) (x : Word) (h : k ≠ addr) :
    (m.write addr x).read k = m.read k := by simp [Memory.read_write, h]

theorem Memory.wfFrom_cons (lo k : Nat) (v : Word) (m : Memory) :
    Memory.wfFrom lo ((k, v) :: m) = true ↔
      lo ≤ k ∧ k < Config.memWords ∧ v ≠ 0#16 ∧ Memory.wfFrom (k + 1) m = true := by
  simp [Memory.wfFrom, and_assoc]

theorem Memory.wfFrom_mono {lo lo' : Nat} {m : Memory} (h : lo' ≤ lo)
    (hm : Memory.wfFrom lo m = true) : Memory.wfFrom lo' m = true := by
  cases m with
  | nil => rfl
  | cons cell m =>
    obtain ⟨k, v⟩ := cell
    rw [Memory.wfFrom_cons] at hm ⊢
    exact ⟨h.trans hm.1, hm.2⟩

/-- In a rising list every address below its start is unlisted. -/
theorem Memory.read_below {lo k : Nat} {m : Memory} (hm : Memory.wfFrom lo m = true) (h : k < lo) :
    m.read k = 0#16 := by
  induction m generalizing lo with
  | nil => rfl
  | cons cell m ih =>
    obtain ⟨j, v⟩ := cell
    rw [Memory.wfFrom_cons] at hm
    rw [Memory.read, if_neg (by omega)]
    exact ih hm.2.2.2 (by omega)

theorem Memory.erase_keeps_wfFrom {lo : Nat} {m : Memory} (addr : Nat)
    (hm : Memory.wfFrom lo m = true) : Memory.wfFrom lo (m.erase addr) = true := by
  induction m generalizing lo with
  | nil => rfl
  | cons cell m ih =>
    obtain ⟨k, v⟩ := cell
    rw [Memory.wfFrom_cons] at hm
    by_cases hk : addr = k
    · rw [Memory.erase, if_pos hk]
      exact Memory.wfFrom_mono (by omega) (ih hm.2.2.2)
    · rw [Memory.erase, if_neg hk, Memory.wfFrom_cons]
      exact ⟨hm.1, hm.2.1, hm.2.2.1, ih hm.2.2.2⟩

theorem Memory.insert_keeps_wfFrom {lo addr : Nat} {m : Memory} {x : Word}
    (hm : Memory.wfFrom lo m = true) (hlo : lo ≤ addr) (ha : addr < Config.memWords)
    (hx : x ≠ 0#16) (hk : ∀ v, (addr, v) ∉ m) : Memory.wfFrom lo (m.insert addr x) = true := by
  induction m generalizing lo with
  | nil => exact (Memory.wfFrom_cons ..).2 ⟨hlo, ha, hx, rfl⟩
  | cons cell m ih =>
    obtain ⟨k, v⟩ := cell
    have hne : addr ≠ k := fun e => hk v (by simp [e])
    have hm' := (Memory.wfFrom_cons ..).1 hm
    by_cases hlt : addr < k
    · rw [Memory.insert, if_pos hlt, Memory.wfFrom_cons]
      exact ⟨hlo, ha, hx, (Memory.wfFrom_cons ..).2 ⟨hlt, hm'.2⟩⟩
    · rw [Memory.insert, if_neg hlt, Memory.wfFrom_cons]
      exact ⟨hm'.1, hm'.2.1, hm'.2.2.1,
        ih hm'.2.2.2 (by omega) fun v hv => hk v (by simp [hv])⟩

/-- A write to an existing cell keeps the canonical form. -/
theorem Memory.write_keeps_wf {m : Memory} {addr : Nat} (x : Word) (hm : m.wf = true)
    (ha : addr < Config.memWords) : (m.write addr x).wf = true := by
  unfold Memory.write
  split
  · exact Memory.erase_keeps_wfFrom addr hm
  · exact Memory.insert_keeps_wfFrom (Memory.erase_keeps_wfFrom addr hm) (Nat.zero_le _) ha
      ‹_› fun v => Memory.not_mem_erase m addr v

/-- Load's copy keeps the canonical form when it ends inside memory. -/
theorem Memory.writeFrom_keeps_wf {m : Memory} {base : Nat} {xs : List Word} (hm : m.wf = true)
    (h : base + xs.length ≤ Config.memWords) : (m.writeFrom base xs).wf = true := by
  induction xs generalizing m base with
  | nil => exact hm
  | cons x xs ih =>
    simp only [List.length_cons] at h
    exact ih (Memory.write_keeps_wf x hm (by omega)) (by omega)

/-- What a cell holds after Load's copy. -/
theorem Memory.read_writeFrom (m : Memory) (base k : Nat) (xs : List Word) :
    (m.writeFrom base xs).read k =
      if base ≤ k ∧ k < base + xs.length then xs.getD (k - base) 0#16 else m.read k := by
  induction xs generalizing m base with
  | nil => simp [Memory.writeFrom]
  | cons x xs ih =>
    rw [Memory.writeFrom, ih, Memory.read_write]
    rcases Nat.lt_trichotomy k base with h | h | h
    · simp [show ¬ base ≤ k by omega, show ¬ base + 1 ≤ k by omega, show k ≠ base by omega]
    · simp [h]
    · obtain ⟨j, rfl⟩ : ∃ j, k = base + 1 + j := ⟨k - (base + 1), by omega⟩
      simp only [List.length_cons, show base + 1 + j - base = j + 1 by omega,
        show base + 1 + j - (base + 1) = j by omega, List.getD_cons_succ,
        show base + 1 + j ≠ base by omega, if_false]
      by_cases hj : j < xs.length
      · rw [if_pos (by omega), if_pos (by omega)]
      · rw [if_neg (by omega), if_neg (by omega)]

/-- The address check, as the range it stands for. -/
theorem addressValid_iff (addr : Int) :
    addressValid addr = true ↔ 0 ≤ addr ∧ addr < Config.memWords := by
  cases addr <;> simp [addressValid]

/-- The value check, as the range it stands for. -/
theorem valueValid_iff (v : Int) : valueValid v = true ↔ 0 ≤ v ∧ v < 65536 := by
  cases v with
  | ofNat n => simp [valueValid]
  | negSucc n => simp [valueValid]

@[simp] theorem toNat_zext13 (d : DataField) : (zext13 d).toNat = d.toNat := by
  have := d.isLt
  simp [zext13]
  omega

/-- A 12-bit address is valid at every access (20_memory.md R66). -/
theorem addressValid_zext13 (d : DataField) : addressValid (addressOf (zext13 d)) = true := by
  have := d.isLt
  rw [addressValid_iff, addressOf, toNat_zext13]
  exact ⟨Int.natCast_nonneg _, by exact_mod_cast this⟩

/-- A read at a 12-bit address answers the cell. -/
theorem memRead_zext13 (m : Memory) (d : DataField) :
    memRead m (addressOf (zext13 d)) = .ok (m.read d.toNat) := by
  rw [memRead, if_pos (addressValid_zext13 d), addressOf, Int.toNat_natCast, toNat_zext13]

/-- A write of a word at a 12-bit address is done. -/
theorem memWrite_zext13 (m : Memory) (d : DataField) (x : Word) :
    memWrite m (addressOf (zext13 d)) (x.toNat : Int) = .ok (m.write d.toNat x) := by
  have hx : valueValid (x.toNat : Int) = true :=
    (valueValid_iff _).2 ⟨Int.natCast_nonneg _, by exact_mod_cast x.isLt⟩
  rw [memWrite, if_pos (addressValid_zext13 d), if_pos hx, addressOf, Int.toNat_natCast,
    toNat_zext13, BitVec.ofInt_natCast, BitVec.ofNat_toNat, BitVec.setWidth_eq]

end Sys2Proof.Machine
end

