-- ==== Sys2Proof/Laws/State.lean ====
section
/-! SUPPORT. One lemma per field per update of the state, so that no later proof unfolds an update. -/

namespace Sys2Proof.Machine

@[simp] theorem resetWith_a (ra rb rc : Word) : (State.resetWith ra rb rc).a = ra := rfl
@[simp] theorem resetWith_b (ra rb rc : Word) : (State.resetWith ra rb rc).b = rb := rfl
@[simp] theorem resetWith_c (ra rb rc : Word) : (State.resetWith ra rb rc).c = rc := rfl
@[simp] theorem resetWith_current (ra rb rc : Word) : (State.resetWith ra rb rc).current = 0#13 := rfl
@[simp] theorem resetWith_next (ra rb rc : Word) : (State.resetWith ra rb rc).next = 0#13 := rfl
@[simp] theorem resetWith_runState (ra rb rc : Word) :
    (State.resetWith ra rb rc).runState = .halted := rfl
@[simp] theorem resetWith_fault (ra rb rc : Word) : (State.resetWith ra rb rc).fault = none := rfl
@[simp] theorem resetWith_mem (ra rb rc : Word) : (State.resetWith ra rb rc).mem = [] := rfl
@[simp] theorem resetWith_input (ra rb rc : Word) : (State.resetWith ra rb rc).input = [] := rfl
@[simp] theorem resetWith_output (ra rb rc : Word) : (State.resetWith ra rb rc).output = [] := rfl

@[simp] theorem advance_a (s : State) : (advance s).a = s.a := rfl
@[simp] theorem advance_b (s : State) : (advance s).b = s.b := rfl
@[simp] theorem advance_c (s : State) : (advance s).c = s.c := rfl
@[simp] theorem advance_current (s : State) : (advance s).current = s.next := rfl
@[simp] theorem advance_next (s : State) : (advance s).next = s.next + 1#13 := rfl
@[simp] theorem advance_runState (s : State) : (advance s).runState = s.runState := rfl
@[simp] theorem advance_fault (s : State) : (advance s).fault = s.fault := rfl
@[simp] theorem advance_mem (s : State) : (advance s).mem = s.mem := rfl
@[simp] theorem advance_input (s : State) : (advance s).input = s.input := rfl
@[simp] theorem advance_output (s : State) : (advance s).output = s.output := rfl

@[simp] theorem redirect_a (s : State) (d : DataField) : (redirect s d).a = s.a := rfl
@[simp] theorem redirect_b (s : State) (d : DataField) : (redirect s d).b = s.b := rfl
@[simp] theorem redirect_c (s : State) (d : DataField) : (redirect s d).c = s.c := rfl
@[simp] theorem redirect_current (s : State) (d : DataField) :
    (redirect s d).current = s.current := rfl
@[simp] theorem redirect_next (s : State) (d : DataField) : (redirect s d).next = zext13 d := rfl
@[simp] theorem redirect_runState (s : State) (d : DataField) :
    (redirect s d).runState = s.runState := rfl
@[simp] theorem redirect_fault (s : State) (d : DataField) : (redirect s d).fault = s.fault := rfl
@[simp] theorem redirect_mem (s : State) (d : DataField) : (redirect s d).mem = s.mem := rfl
@[simp] theorem redirect_input (s : State) (d : DataField) : (redirect s d).input = s.input := rfl
@[simp] theorem redirect_output (s : State) (d : DataField) : (redirect s d).output = s.output := rfl

@[simp] theorem emit_a (s : State) (k : OutKind) : (emit s k).a = s.a := rfl
@[simp] theorem emit_b (s : State) (k : OutKind) : (emit s k).b = s.b := rfl
@[simp] theorem emit_c (s : State) (k : OutKind) : (emit s k).c = s.c := rfl
@[simp] theorem emit_current (s : State) (k : OutKind) : (emit s k).current = s.current := rfl
@[simp] theorem emit_next (s : State) (k : OutKind) : (emit s k).next = s.next := rfl
@[simp] theorem emit_runState (s : State) (k : OutKind) : (emit s k).runState = s.runState := rfl
@[simp] theorem emit_fault (s : State) (k : OutKind) : (emit s k).fault = s.fault := rfl
@[simp] theorem emit_mem (s : State) (k : OutKind) : (emit s k).mem = s.mem := rfl
@[simp] theorem emit_input (s : State) (k : OutKind) : (emit s k).input = s.input := rfl
@[simp] theorem emit_output (s : State) (k : OutKind) :
    (emit s k).output = s.output ++ [⟨k, s.a⟩] := rfl

@[simp] theorem readReg_a (s : State) : readReg s .a = s.a := rfl
@[simp] theorem readReg_b (s : State) : readReg s .b = s.b := rfl
@[simp] theorem readReg_c (s : State) : readReg s .c = s.c := rfl

@[simp] theorem writeReg_a (s : State) (v : Word) : writeReg s .a v = { s with a := v } := rfl
@[simp] theorem writeReg_b (s : State) (v : Word) : writeReg s .b v = { s with b := v } := rfl
@[simp] theorem writeReg_c (s : State) (v : Word) : writeReg s .c v = { s with c := v } := rfl

@[simp] theorem writeReg_current (s : State) (r : Reg) (v : Word) :
    (writeReg s r v).current = s.current := by cases r <;> rfl
@[simp] theorem writeReg_next (s : State) (r : Reg) (v : Word) :
    (writeReg s r v).next = s.next := by cases r <;> rfl
@[simp] theorem writeReg_runState (s : State) (r : Reg) (v : Word) :
    (writeReg s r v).runState = s.runState := by cases r <;> rfl
@[simp] theorem writeReg_fault (s : State) (r : Reg) (v : Word) :
    (writeReg s r v).fault = s.fault := by cases r <;> rfl
@[simp] theorem writeReg_mem (s : State) (r : Reg) (v : Word) :
    (writeReg s r v).mem = s.mem := by cases r <;> rfl
@[simp] theorem writeReg_input (s : State) (r : Reg) (v : Word) :
    (writeReg s r v).input = s.input := by cases r <;> rfl
@[simp] theorem writeReg_output (s : State) (r : Reg) (v : Word) :
    (writeReg s r v).output = s.output := by cases r <;> rfl

/-- Reading back the register just written. -/
theorem readReg_writeReg_same (s : State) (r : Reg) (v : Word) :
    readReg (writeReg s r v) r = v := by cases r <;> rfl

/-- Writing one register leaves the others (R20: no two registers overlap). -/
theorem readReg_writeReg_other (s : State) (r q : Reg) (v : Word) (h : q ≠ r) :
    readReg (writeReg s r v) q = readReg s q := by cases r <;> cases q <;> first | rfl | exact absurd rfl h

end Sys2Proof.Machine
end

