-- ==== Sys2Proof/Laws/Ops.lean ====
section
/-! SUPPORT. One lemma for each shared operation of the meanings: everything it can answer. -/

namespace Sys2Proof.Machine

/-- Fault entry always answers a next state, this one (60_exceptions.md R228). -/
theorem takeFault_eq (f : Fault) (s : State) :
    takeFault f s = .next { advance s with fault := some f, runState := .faulted } := rfl

/-- An operand read never faults (20_memory.md R66): the continuation gets the cell. -/
@[simp] theorem withRead_eq (addr : DataField) (s : State) (k : Word → State) :
    withRead addr s k = .next (k (s.mem.read addr.toNat)) := by
  rw [withRead, memRead_zext13]

theorem loadRegister_eq (r : Reg) (addr : DataField) (s : State) :
    loadRegister r addr s = .next (writeReg (advance s) r (s.mem.read addr.toNat)) := by
  simp [loadRegister]

theorem execSta_eq (addr : DataField) (s : State) :
    execSta addr s = .next { advance s with mem := s.mem.write addr.toNat s.a } := by
  rw [execSta, memWrite_zext13]

theorem swapWithA_eq (r : Reg) (s : State) :
    swapWithA r s = .next (writeReg (writeReg (advance s) .a (readReg s r)) r s.a) := rfl

theorem addRegister_eq (r : Reg) (s : State) :
    addRegister r s = .next { advance s with a := aluAdd s.a (readReg s r) } := rfl

theorem subtractRegister_eq (r : Reg) (s : State) :
    subtractRegister r s = .next { advance s with a := aluSub s.a (readReg s r) } := rfl

theorem shiftRegister_eq (bit1 bit0 : Bool) (s : State) :
    shiftRegister bit1 bit0 s =
      .next { advance s with
        a := aluShift (shiftDirection bit1) s.a (readReg s (shiftAmountReg bit0)) } := rfl

theorem branchWhen_eq (taken : Bool) (target : DataField) (s : State) :
    branchWhen taken target s =
      .next (if taken then redirect (advance s) target else advance s) := by
  cases taken <;> rfl

/-- The test of BRP always holds (46_branch.md R206). -/
@[simp] theorem isAtLeastZero_true (x : Word) : isAtLeastZero x = true := by
  simp [isAtLeastZero]

/-- The test of BRZ is on the whole word (46_branch.md R205). -/
@[simp] theorem isZero_iff (x : Word) : isZero x = true ↔ x = 0#16 := by
  simp [isZero, BitVec.toNat_eq]

/-- A fetch inside memory answers the cell. -/
theorem fetch_inside {s : State} (h : s.next.toNat < Config.memWords) :
    fetch s = .ok (s.mem.read s.next.toNat) := by
  have hv : addressValid (addressOf s.next) = true :=
    (addressValid_iff _).2 ⟨Int.natCast_nonneg _, Int.ofNat_lt.2 h⟩
  rw [fetch, memRead, if_pos hv, addressOf, Int.toNat_natCast]

/-- A fetch outside memory answers the fault (R221). -/
theorem fetch_outside {s : State} (h : ¬ s.next.toNat < Config.memWords) :
    fetch s = .error (.addressRange (addressOf s.next)) := by
  have hv : ¬ addressValid (addressOf s.next) = true := fun e =>
    h (Int.ofNat_lt.1 ((addressValid_iff _).1 e).2)
  rw [fetch, memRead, if_neg hv]

end Sys2Proof.Machine
end

