-- ==== Sys2Proof/Laws/PerInstr.lean ====
section
/-! SUPPORT. The family `FieldsWellFormed`: every instruction's word has fields that name an
instruction of 30_encoding.md R96 (opcode and data in range, the selector listed). -/

/-- The fields of the instruction's word pass the checks of WellFormed.lean. -/
def Sys2Proof.Laws.FieldsWellFormed.Statement (i : Sys2Proof.Instr) : Prop :=
  (Sys2Proof.unpackFields (Sys2Proof.encode i)).wellFormed = true

namespace Sys2Proof.Laws.FieldsWellFormed

/-- A word whose data field is not a selector is well formed whatever the data. -/
theorem wellFormed_open (op : Opcode) (d : DataField) (h : selectorCount op.toNat = none) :
    (unpackFields (packWord op d)).wellFormed = true := by
  have ho := op.isLt
  have hd := d.isLt
  simp [unpackFields, opcodeOf_packWord, dataOf_packWord, Fields.wellFormed, Fields.opcodeInRange,
    Fields.dataInRange, Fields.selectorListed, h]
  omega

theorem hlt (d : DataField) : Statement (.hlt d) := wellFormed_open 0#4 d rfl
theorem lda (d : DataField) : Statement (.lda d) := wellFormed_open 1#4 d rfl
theorem ldb (d : DataField) : Statement (.ldb d) := wellFormed_open 2#4 d rfl
theorem ldc (d : DataField) : Statement (.ldc d) := wellFormed_open 3#4 d rfl
theorem sta (d : DataField) : Statement (.sta d) := wellFormed_open 4#4 d rfl
theorem swp0 : Statement .swp0 := by unfold Statement; decide
theorem swp1 : Statement .swp1 := by unfold Statement; decide
theorem adr0 : Statement .adr0 := by unfold Statement; decide
theorem adr1 : Statement .adr1 := by unfold Statement; decide
theorem adr2 : Statement .adr2 := by unfold Statement; decide
theorem adm (d : DataField) : Statement (.adm d) := wellFormed_open 7#4 d rfl
theorem sbr0 : Statement .sbr0 := by unfold Statement; decide
theorem sbr1 : Statement .sbr1 := by unfold Statement; decide
theorem sbr2 : Statement .sbr2 := by unfold Statement; decide
theorem sbm (d : DataField) : Statement (.sbm d) := wellFormed_open 9#4 d rfl
theorem sft0 : Statement .sft0 := by unfold Statement; decide
theorem sft1 : Statement .sft1 := by unfold Statement; decide
theorem sft2 : Statement .sft2 := by unfold Statement; decide
theorem sft3 : Statement .sft3 := by unfold Statement; decide
theorem rsv11 (d : DataField) : Statement (.rsv11 d) := wellFormed_open 11#4 d rfl
theorem inp : Statement .inp := by unfold Statement; decide
theorem out : Statement .out := by unfold Statement; decide
theorem otc : Statement .otc := by unfold Statement; decide
theorem brz (d : DataField) : Statement (.brz d) := wellFormed_open 13#4 d rfl
theorem brp (d : DataField) : Statement (.brp d) := wellFormed_open 14#4 d rfl
theorem jmp (d : DataField) : Statement (.jmp d) := wellFormed_open 15#4 d rfl

end Sys2Proof.Laws.FieldsWellFormed
end

