-- ==== Sys2Proof/Laws/Step.lean ====
section
/-! SUPPORT. What one step can do, said once. -/

namespace Sys2Proof.Machine

/-- A step that answers a next state was taken by a running core. -/
theorem running_of_step_next {s t : State} (h : step s = .next t) : s.runState = .running := by
  unfold step at h
  split at h
  · assumption
  · cases h
  · cases h

/-- The three ways a running core takes a step: the fetch faults, the word is illegal, or the
decoded instruction runs. -/
theorem step_running_cases {s : State} (h : s.runState = .running) :
    (¬ s.next.toNat < Config.memWords ∧
        step s = takeFault (.addressRange (addressOf s.next)) s) ∨
      (∃ w, s.next.toNat < Config.memWords ∧
        decode (s.mem.read s.next.toNat) = .illegal w ∧
        step s = takeFault (.invalidInstruction w) s) ∨
      ∃ i, s.next.toNat < Config.memWords ∧
        decode (s.mem.read s.next.toNat) = .legal i ∧ step s = exec i s := by
  by_cases hn : s.next.toNat < Config.memWords
  · cases hd : decode (s.mem.read s.next.toNat) with
    | legal i => exact .inr (.inr ⟨i, hn, rfl, by simp [step, h, fetch_inside hn, execWord, hd]⟩)
    | illegal w =>
      exact .inr (.inl ⟨w, hn, rfl, by simp [step, h, fetch_inside hn, execWord, hd]⟩)
  · exact .inl ⟨hn, by simp [step, h, fetch_outside hn]⟩

/-- What the decoded instruction may leave: a next state with the memory it had, or, for STA, with
one cell written. -/
theorem exec_next_mem (i : Instr) (s : State) :
    ∃ t, exec i s = .next t ∧
      (t.mem = s.mem ∨ ∃ addr, i = .sta addr ∧ t.mem = s.mem.write addr.toNat s.a) := by
  cases i
  case sta addr => exact ⟨_, execSta_eq addr s, .inr ⟨addr, rfl, rfl⟩⟩
  case inp =>
    simp only [exec, execInp]
    split <;> exact ⟨_, rfl, .inl rfl⟩
  all_goals
    simp [exec, execHlt, execLda, execLdb, execLdc, loadRegister_eq, execSwp0, execSwp1,
      swapWithA_eq, execAdr0, execAdr1, execAdr2, addRegister_eq, execAdm, execSbr0, execSbr1,
      execSbr2, subtractRegister_eq, execSbm, execSft0, execSft1, execSft2, execSft3,
      shiftRegister_eq, execRsv11, execOut, execOtc, execBrz, execBrp, execJmp, branchWhen_eq]
  case brz addr => split <;> rfl

end Sys2Proof.Machine
end

