-- ==== Sys2Proof/Laws/Transactions.lean ====
section
/-! SUPPORT. What each transaction of the host leaves, said once. -/

namespace Sys2Proof.Machine

/-- Load answers the state it had, or, Halted and with a program that fits, that state with the
program copied. -/
theorem doLoad_cases (program : List Word) (s : State) :
    (doLoad program s).1 = s ∨
      (s.runState = .halted ∧ program.length ≤ Config.memWords ∧
        (doLoad program s).1 = { s with mem := s.mem.writeFrom Config.loadBase program }) := by
  cases hs : s.runState
  · by_cases hp : programFits program = true
    · exact .inr ⟨rfl, of_decide_eq_true hp, by simp [doLoad, hs, hp]⟩
    · exact .inl (by simp [doLoad, hs, hp])
  · exact .inl (by simp [doLoad, hs])
  · exact .inl (by simp [doLoad, hs])

/-- Run answers the state it had, or, Halted, that state Running at the entry. -/
theorem doRun_cases (s : State) :
    (doRun s).1 = s ∨
      (s.runState = .halted ∧ (doRun s).1 = { s with
        current := Config.entry, next := Config.entry, runState := .running }) := by
  cases hs : s.runState
  · exact .inr ⟨rfl, by simp [doRun, hs]⟩
  · exact .inl (by simp [doRun, hs])
  · exact .inl (by simp [doRun, hs])

/-- Step answers the state it had, or the next state of `step`. -/
theorem doStep_cases (s : State) :
    (doStep s).1 = s ∨ ∃ t, step s = .next t ∧ (doStep s).1 = t := by
  cases h : step s with
  | next t => exact .inr ⟨t, rfl, by simp [doStep, h]⟩
  | fault f => exact .inl (by simp [doStep, h])
  | refused r => exact .inl (by simp [doStep, h])

theorem doStep_of_next {s t : State} (h : step s = .next t) : doStep s = (t, .accepted) := by
  simp [doStep, h]

theorem runSteps_zero (s : State) : runSteps 0 s = s := rfl

theorem runSteps_succ_of_running {s : State} (n : Nat) (h : s.runState = .running) :
    runSteps (n + 1) s = runSteps n (doStep s).1 := by
  simp [runSteps, h]

@[simp] theorem actAll_nil (s : State) : actAll [] s = s := rfl

@[simp] theorem actAll_cons (x : HostAction) (xs : List HostAction) (s : State) :
    actAll (x :: xs) s = actAll xs (act x s).1 := rfl

end Sys2Proof.Machine
end

