-- ==== Sys2Proof/Tests/Slice0.lean ====
section
/-! SUPPORT. The model's own tests: words written out from the spec's encodings, one step of each
instruction with the result that 95_test_vectors.md gives, and a witness for the hypotheses of each
statement. -/

namespace Sys2Proof.Tests

open Sys2Proof.Machine
open Sys2Proof.Safety

/-! ## The checks of WellFormed -/

theorem test_opcode_16_refused : (Fields.mk 16 0).wellFormed = false := by decide
theorem test_data_4096_refused : (Fields.mk 1 4096).wellFormed = false := by decide
theorem test_adr_selector_3_refused : (Fields.mk 6 3).wellFormed = false := by decide
theorem test_adr_selector_2_accepted : (Fields.mk 6 2).wellFormed = true := by decide
/-- S5: 4096 words load, 4097 do not. -/
theorem test_program_4097_refused :
    programFits (List.replicate 4097 0#16) = false ∧
      programFits (List.replicate 4096 0#16) = true := by
  rw [programFits, programFits, List.length_replicate, List.length_replicate]
  decide

/-! ## Decoding: words of 30_encoding.md R103 and the table of 95_test_vectors.md part 2 -/

theorem test_decode_hlt : decode 0b0000111111111111#16 = .legal (.hlt 4095#12) := by decide
theorem test_decode_lda : decode 0b0001000000000011#16 = .legal (.lda 3#12) := by decide
theorem test_decode_ldb : decode 0b0010111111111111#16 = .legal (.ldb 4095#12) := by decide
theorem test_decode_ldc : decode 0b0011000000000000#16 = .legal (.ldc 0#12) := by decide
theorem test_decode_sta : decode 0b0100111111111111#16 = .legal (.sta 4095#12) := by decide
theorem test_decode_swp0 : decode 0b0101000000000000#16 = .legal .swp0 := by decide
theorem test_decode_swp1 : decode 0b0101000000000001#16 = .legal .swp1 := by decide
theorem test_decode_swp2_illegal : decode 0x5002#16 = .illegal 0x5002#16 := by decide
theorem test_decode_adr0 : decode 0b0110000000000000#16 = .legal .adr0 := by decide
theorem test_decode_adr1 : decode 0b0110000000000001#16 = .legal .adr1 := by decide
theorem test_decode_adr2 : decode 0b0110000000000010#16 = .legal .adr2 := by decide
theorem test_decode_adr3_illegal : decode 0x6003#16 = .illegal 0x6003#16 := by decide
theorem test_decode_adm : decode 0b0111000000001010#16 = .legal (.adm 10#12) := by decide
theorem test_decode_sbr0 : decode 0b1000000000000000#16 = .legal .sbr0 := by decide
theorem test_decode_sbr1 : decode 0b1000000000000001#16 = .legal .sbr1 := by decide
theorem test_decode_sbr2 : decode 0b1000000000000010#16 = .legal .sbr2 := by decide
theorem test_decode_sbr3_illegal : decode 0x8003#16 = .illegal 0x8003#16 := by decide
theorem test_decode_sbm : decode 0b1001000000001011#16 = .legal (.sbm 11#12) := by decide
theorem test_decode_sft0 : decode 0b1010000000000000#16 = .legal .sft0 := by decide
theorem test_decode_sft1 : decode 0b1010000000000001#16 = .legal .sft1 := by decide
theorem test_decode_sft2 : decode 0b1010000000000010#16 = .legal .sft2 := by decide
theorem test_decode_sft3 : decode 0b1010000000000011#16 = .legal .sft3 := by decide
theorem test_decode_sft4_illegal : decode 0xA004#16 = .illegal 0xA004#16 := by decide
theorem test_decode_rsv11 : decode 0b1011000100100011#16 = .legal (.rsv11 291#12) := by decide
theorem test_decode_inp : decode 0b1100000000000000#16 = .legal .inp := by decide
theorem test_decode_out : decode 0b1100000000000001#16 = .legal .out := by decide
theorem test_decode_otc : decode 0b1100000000000010#16 = .legal .otc := by decide
theorem test_decode_io3_illegal : decode 0xC003#16 = .illegal 0xC003#16 := by decide
theorem test_decode_brz : decode 0b1101000000000111#16 = .legal (.brz 7#12) := by decide
theorem test_decode_brp : decode 0b1110000000000011#16 = .legal (.brp 3#12) := by decide
theorem test_decode_jmp : decode 0b1111111111111111#16 = .legal (.jmp 4095#12) := by decide
theorem test_encode_sta : encode (.sta 4095#12) = 0x4FFF#16 := by decide
theorem test_encode_otc : encode .otc = 0xC002#16 := by decide

/-! ## One step of each instruction (95_test_vectors.md part 2) -/

/-- A running core with the given registers and a word at the address it fetches from next. -/
def running (a b c : Word) (p : Pointer) (w : Word) : State :=
  { State.resetWith a b c with next := p, runState := .running, mem := Memory.write [] p.toNat w }

/-- The same with one more cell written. -/
def State.withCell (s : State) (addr : Nat) (x : Word) : State :=
  { s with mem := s.mem.write addr x }

/-- The next state of a step, if it answers one. -/
def stepped (s : State) : Option State :=
  match step s with
  | .next t => some t
  | .fault _ => none
  | .refused _ => none

/-- V-HLT-2. -/
theorem test_hlt : (stepped (running 1 2 3 5 0x0ABC)).map (fun t => (t.runState, t.current, t.next)) =
    some (.halted, 5, 6) := by decide
/-- V-HLT-3. -/
theorem test_hlt_at_4095 :
    (stepped (running 1 2 3 4095 0)).map (fun t => (t.runState, t.fault, t.next)) =
      some (.halted, none, 4096) := by decide
/-- V-LD-4: loads its own word. -/
theorem test_lda : (stepped (running 1 2 3 6 0x1006)).map (fun t => (t.a, t.b, t.c)) =
    some (4102, 2, 3) := by decide
/-- V-LD-2. -/
theorem test_ldb :
    (stepped (State.withCell (running 1 2 3 0 0x2008) 8 4)).map (fun t => (t.a, t.b, t.c)) =
      some (1, 4, 3) := by decide
/-- V-LD-3. -/
theorem test_ldc :
    (stepped (State.withCell (running 1 2 3 0 0x3FFF) 4095 65535)).map (fun t => (t.a, t.b, t.c)) =
      some (1, 2, 65535) := by decide
/-- V-ST-1. -/
theorem test_sta :
    (stepped (running 45056 2 3 0 0x4FFF)).map (fun t => (t.mem.read 4095, t.a)) =
      some (45056, 45056) := by decide
/-- V-ST-2: stores 0 over itself. -/
theorem test_sta_over_itself :
    (stepped (running 0 2 3 9 0x4009)).map (fun t => (t.mem, t.next)) = some ([], 10) := by decide
/-- V-SWP-1. -/
theorem test_swp0 : (stepped (running 1 2 3 0 0x5000)).map (fun t => (t.a, t.b, t.c)) =
    some (2, 1, 3) := by decide
/-- V-SWP-2. -/
theorem test_swp1 : (stepped (running 1 2 3 0 0x5001)).map (fun t => (t.a, t.b, t.c)) =
    some (3, 2, 1) := by decide
/-- V-ADR-3. -/
theorem test_adr0 : (stepped (running 65535 2 3 0 0x6000)).map (·.a) = some 65534 := by decide
/-- V-ADR-5. -/
theorem test_adr1 : (stepped (running 40000 30000 3 0 0x6001)).map (fun t => (t.a, t.b)) =
    some (4464, 30000) := by decide
/-- V-ADR-6. -/
theorem test_adr2 : (stepped (running 65535 2 65535 0 0x6002)).map (·.a) = some 65534 := by decide
/-- V-ADR-8: the illegal selector faults and A stays. -/
theorem test_adr3_faults :
    (stepped (running 9 2 3 1 0x6003)).map (fun t => (t.runState, t.fault, t.a, t.current, t.next)) =
      some (.faulted, some (.invalidInstruction 0x6003), 9, 1, 2) := by decide
/-- V-ADM-3: adds its own word. -/
theorem test_adm : (stepped (running 1 2 3 20 0x7014)).map (·.a) = some 28693 := by decide
/-- V-SBR-1. -/
theorem test_sbr0 : (stepped (running 12345 2 3 0 0x8000)).map (·.a) = some 0 := by decide
/-- V-SBR-2. -/
theorem test_sbr1 : (stepped (running 5 7 3 0 0x8001)).map (·.a) = some 65534 := by decide
/-- V-SBR-4. -/
theorem test_sbr2 : (stepped (running 0 2 65535 0 0x8002)).map (·.a) = some 1 := by decide
/-- V-SBM-2. -/
theorem test_sbm : (stepped (State.withCell (running 0 2 3 0 0x900B) 11 1)).map (·.a) =
    some 65535 := by decide
/-- V-SFT-1. -/
theorem test_sft0 : (stepped (running 4660 4 0 0 0xA000)).map (·.a) = some 9024 := by decide
/-- V-SFT-7 (decision D33). -/
theorem test_sft0_by_16 : (stepped (running 65535 16 0 0 0xA000)).map (·.a) = some 0 := by decide
/-- V-SFT-2. -/
theorem test_sft1 : (stepped (running 1 0 15 0 0xA001)).map (·.a) = some 32768 := by decide
/-- V-SFT-10: a zero enters at the top. -/
theorem test_sft2 : (stepped (running 32768 15 0 0 0xA002)).map (·.a) = some 1 := by decide
/-- V-SFT-4. -/
theorem test_sft3 : (stepped (running 65535 0 8 0 0xA003)).map (·.a) = some 255 := by decide
/-- V-SFT-9 (decision D33): the kernel computes the power. -/
theorem test_sft1_by_65535 : aluShift .left 65535#16 65535#16 = 0#16 := by decide +kernel
/-- V-RSV-3. -/
theorem test_rsv11 : (stepped (running 1 2 3 4095 0xB000)).map (fun t => (t.runState, t.next, t.a)) =
    some (.running, 4096, 1) := by decide
/-- V-IO-1. -/
theorem test_inp :
    (stepped { running 1 2 3 0 0xC000 with input := [65, 9] }).map (fun t => (t.a, t.input)) =
      some (65, [9]) := by decide
/-- V-IO-2. -/
theorem test_inp_negative :
    (stepped { running 1 2 3 0 0xC000 with input := [-1] }).map (·.a) = some 65535 := by decide
/-- V-IO-5: the hold. -/
theorem test_inp_holds : stepped (running 1 2 3 7 0xC000) = some (running 1 2 3 7 0xC000) := by decide
/-- V-IO-6. -/
theorem test_out : (stepped (running 10 2 3 0 0xC001)).map (·.output) = some [⟨.num, 10⟩] := by decide
/-- V-IO-8. -/
theorem test_otc :
    (stepped { running 65 2 3 0 0xC002 with output := [⟨.num, 7⟩] }).map (·.output) =
      some [⟨.num, 7⟩, ⟨.chr, 65⟩] := by decide
/-- V-BR-10: taken at the last address. -/
theorem test_brz : (stepped (running 0 2 3 4095 0xD000)).map (fun t => (t.current, t.next)) =
    some (4095, 0) := by decide
/-- V-BR-3. -/
theorem test_brz_not_taken : (stepped (running 65535 2 3 1 0xD007)).map (·.next) = some 2 := by decide
/-- V-BR-6. -/
theorem test_brp : (stepped (running 32768 2 3 1 0xE003)).map (fun t => (t.current, t.next)) =
    some (1, 3) := by decide
/-- V-BR-9. -/
theorem test_jmp : (stepped (running 1 2 3 10 0xFFFF)).map (fun t => (t.current, t.next)) =
    some (10, 4095) := by decide
/-- V-FLT-1. -/
theorem test_fetch_fault :
    (stepped (running 1 2 3 4096 0)).map (fun t => (t.current, t.next, t.runState, t.fault)) =
      some (4096, 4097, .faulted, some (.addressRange 4096)) := by decide
/-- V-FLT-2. -/
theorem test_run_refused_in_faulted :
    (doRun { running 1 2 3 0 0 with runState := .faulted }).2 = .refused := by decide
/-- V-LOAD-5. -/
theorem test_second_load_keeps_the_tail :
    (fun s => (s.mem.read 0, s.mem.read 1, s.mem.read 2))
      (doLoad [9] (doLoad [1, 2, 3] State.reset).1).1 = (9, 2, 3) := by decide
/-- V-RUN-1. -/
theorem test_run_of_empty_memory :
    (fun s => (s.current, s.next, s.runState)) (runSteps 5 (doRun State.reset).1) =
      (0, 1, .halted) := by decide
/-- The word placed for the next step is the one it runs. -/
theorem test_withFetchWord :
    (stepped (State.reset.withFetchWord 16 0xFFFF)).map (fun t => (t.current, t.next)) =
      some (0, 4095) := by decide
theorem test_decodeTableWord :
    decodeTableWord 16 0xA002 = some .sft2 ∧ decodeTableWord 16 0xA004 = none := by decide

/-! ## The assembler (95_test_vectors.md part 2) -/

/-- V-ASM-1. -/
theorem test_asm_labels :
    build "// demo\nstart LDA $val   // load\n\n      OUT\n      JMP $end\nval   DAT 65535\nend   HLT\n"
      = .ok [0x1003, 0xC001, 0xF004, 0xFFFF, 0x0000] := by rfl
/-- V-ASM-2, 3, 4, 12, 13. -/
theorem test_asm_words :
    build "OUT 7\nHLT\nDAT\nDAT 65535\nADR 3" = .ok [0xC001, 0, 0, 0xFFFF, 0x6003] := by rfl
/-- V-ASM-5, V-ASM-6. -/
theorem test_asm_name_errors :
    build "LDA $nope" = .error (.nameError 1) ∧ build "x LDA 1\nx HLT" = .error (.nameError 2) :=
  ⟨rfl, rfl⟩
/-- V-ASM-7, 8, 9. -/
theorem test_asm_syntax_errors :
    build "foo bar" = .error (.syntaxError 1) ∧ build "LDA 1 2" = .error (.syntaxError 1) ∧
      build "LDA -1" = .error (.syntaxError 1) ∧ build "LDA x" = .error (.syntaxError 1) :=
  ⟨rfl, rfl, rfl, rfl⟩
/-- V-ASM-10, 11. -/
theorem test_asm_range_errors :
    build "LDA 4096" = .error (.rangeError 1) ∧ build "DAT 65536" = .error (.rangeError 1) :=
  ⟨rfl, rfl⟩

/-! ## Witnesses: states and operands that meet a statement's hypotheses -/

theorem witness_EncodeOfDecodeIsIdentity : decode 0x1003#16 = .legal (.lda 3#12) := by decide
theorem witness_PackAndUnpackAreInverse : 15 ≤ 15 ∧ 4095 ≤ 4095 := by decide
theorem witness_OpcodeTableRowsPartitionLegalWords :
    decode 0xFFFF#16 = .legal (.jmp 4095#12) ∧ decode 0x6003#16 = .illegal 0x6003#16 := by decide
theorem witness_AdditionWrapsModulo65536 :
    (65535#16).toNat + (0#16).toNat ≤ 65535 ∧ 65536 ≤ (65535#16).toNat + (1#16).toNat := by decide
theorem witness_SubtractionWrapsModulo65536 :
    (5#16).toNat ≤ (5#16).toNat ∧ (0#16).toNat < (1#16).toNat := by decide
theorem witness_ShiftAmountIsTakenWhole : 16 ≤ (16#16).toNat ∧ (0#16 : Word) = 0#16 := by decide
theorem witness_LoadsWriteTheirRegister :
    (∃ t, exec (.ldb 0#12) (running 1 2 3 0 0x2000) = .next t ∧ t.b ≠ 2#16) ∧
      ∃ t, exec .swp1 (running 1 2 3 0 0x5001) = .next t ∧ t.c ≠ 3#16 :=
  ⟨⟨_, rfl, by decide⟩, ⟨_, rfl, by decide⟩⟩
theorem witness_StoreWritesTheAddressedCell :
    ∃ t, exec (.sta 4095#12) (running 1 2 3 0 0x4FFF) = .next t ∧ t.mem ≠ (running 1 2 3 0 0x4FFF).mem :=
  ⟨_, rfl, by decide⟩
theorem witness_HaltEndsTheRun :
    ∃ t, exec (.hlt 0#12) (running 1 2 3 4095 0) = .next t ∧ t.runState = .halted :=
  ⟨_, rfl, by decide⟩
theorem witness_InputWritesTheFrontInteger :
    ({ running 1 2 3 0 0xC000 with input := [65, 9] } : State).input = 65 :: [9] := by decide
theorem witness_InputHoldsUntilSupplied :
    (running 1 2 3 4095 0xC000).runState = .running ∧ (running 1 2 3 4095 0xC000).next.toNat < 4096 ∧
      decode ((running 1 2 3 4095 0xC000).mem.read 4095) = .legal .inp ∧
      (running 1 2 3 4095 0xC000).input = [] := by decide
theorem witness_BranchIfZeroTestsTheWholeAccumulator :
    (running 0 2 3 0 0xD000).a = 0#16 ∧ (running 32768 2 3 0 0xD000).a ≠ 0#16 := by decide
theorem witness_JumpWritesNext : (running 1 2 3 4095 0xFFFF).next = (4095#12).setWidth 13 := by decide
theorem witness_OnlyNamedInstructionsWriteRegisters :
    (∃ t, exec .swp0 (running 1 2 3 0 0x5000) = .next t ∧ t.b ≠ 2#16 ∧ t.a ≠ 1#16) ∧
      ∃ t, exec (.ldc 0#12) (running 1 2 3 0 0x3000) = .next t ∧ t.c ≠ 3#16 :=
  ⟨⟨_, rfl, by decide, by decide⟩, ⟨_, rfl, by decide⟩⟩
theorem witness_OnlyNamedInstructionsChangeControlState :
    (∃ t, exec (.hlt 0#12) (running 1 2 3 0 0) = .next t ∧ t.runState ≠ .running) ∧
      (∃ t, exec .inp { running 1 2 3 0 0xC000 with input := [9] } = .next t ∧ t.input ≠ [9]) ∧
      ∃ t, exec .out (running 1 2 3 0 0xC001) = .next t ∧ t.output ≠ [] :=
  ⟨⟨_, rfl, by decide⟩, ⟨_, rfl, by decide⟩, ⟨_, rfl, by decide⟩⟩
theorem witness_StepChangesOnlyTheStoredCell :
    ∃ t, step (running 1 2 3 0 0x4FFF) = .next t ∧
      t.mem.read 4095 ≠ (running 1 2 3 0 0x4FFF).mem.read 4095 :=
  ⟨_, rfl, by decide⟩
/-- Every arm of `RedirectLogicFormsNext`: the fetch at 4096, an illegal word, BRZ taken and not
taken, BRP, JMP, another instruction, the hold. -/
theorem witness_RedirectLogicFormsNext :
    ((running 1 2 3 4096 0).runState = .running ∧ (running 1 2 3 4096 0).holding = false ∧
        fetch (running 1 2 3 4096 0) = .error (.addressRange 4096)) ∧
      (decode 0x6003#16 = .illegal 0x6003#16 ∧ fetch (running 1 2 3 0 0x6003) = .ok 0x6003 ∧
        (running 1 2 3 0 0x6003).holding = false) ∧
      (fetch (running 0 2 3 4095 0xD000) = .ok 0xD000 ∧ (running 0 2 3 4095 0xD000).a = 0 ∧
        (running 0 2 3 4095 0xD000).holding = false) ∧
      (fetch (running 1 2 3 4095 0xD000) = .ok 0xD000 ∧ (running 1 2 3 4095 0xD000).a ≠ 0 ∧
        (running 1 2 3 4095 0xD000).holding = false) ∧
      (fetch (running 1 2 3 0 0xEFFF) = .ok 0xEFFF ∧ (running 1 2 3 0 0xEFFF).holding = false) ∧
      (fetch (running 1 2 3 0 0xFFFF) = .ok 0xFFFF ∧ (running 1 2 3 0 0xFFFF).holding = false) ∧
      (fetch (running 1 2 3 4095 0xB000) = .ok 0xB000 ∧
        (running 1 2 3 4095 0xB000).holding = false) ∧
      (running 1 2 3 4095 0xC000).holding = true := by decide
theorem witness_StoredWordIsWhatTheNextFetchReturns :
    (running 1 2 3 0 0x4001).runState = .running ∧ (running 1 2 3 0 0x4001).next.toNat < 4096 ∧
      decode ((running 1 2 3 0 0x4001).mem.read 0) = .legal (.sta 1#12) ∧
      (∃ t, step (running 1 2 3 0 0x4001) = .next t) ∧
      (1#13 : Pointer) = (1#12).setWidth 13 ∧ (4096#13 : Pointer) ≠ (1#12).setWidth 13 :=
  ⟨rfl, by decide, by decide, ⟨_, rfl⟩, by decide, by decide⟩
theorem witness_MemoryReadValidatesItsAddress :
    ((0 : Int) ≤ 4095 ∧ (4095 : Int) ≤ 4095) ∧ ¬ ((0 : Int) ≤ 4096 ∧ (4096 : Int) ≤ 4095) ∧
      ¬ ((0 : Int) ≤ -1 ∧ (-1 : Int) ≤ 4095) := by decide
theorem witness_MemoryWriteChangesOneCell :
    ((0 : Int) ≤ 4095 ∧ (4095 : Int) ≤ 4095) ∧ ¬ ((0 : Int) ≤ 65536 ∧ (65536 : Int) ≤ 65535) ∧
      ((0 : Int) ≤ 65535 ∧ (65535 : Int) ≤ 65535) ∧ Memory.wf [(4095, 1#16)] = true := by decide
theorem witness_CanonicalMemoriesReadingAlikeAreEqual :
    Memory.wf [(0, 1#16), (4095, 2#16)] = true ∧
      ∀ k, Memory.read [(0, 1#16), (4095, 2#16)] k = Memory.read [(0, 1#16), (4095, 2#16)] k :=
  ⟨by decide, fun _ => rfl⟩
theorem witness_StepRunsTheDecodedInstruction :
    (running 1 2 3 4095 0x5000).runState = .running ∧ (running 1 2 3 4095 0x5000).next.toNat < 4096 ∧
      decode ((running 1 2 3 4095 0x5000).mem.read 4095) = .legal .swp0 := by decide
theorem witness_StepAnswersNextExactlyWhenRunning :
    (running 1 2 3 0 0).runState = .running ∧ State.reset.runState ≠ .running := by decide
theorem witness_IllegalWordFaultsWithNoOtherEffect :
    (running 1 2 3 4095 0x5002).runState = .running ∧ (running 1 2 3 4095 0x5002).next.toNat < 4096 ∧
      (running 1 2 3 4095 0x5002).mem.read 4095 = 0x5002#16 ∧
      ((0x5002#16).toNat / 4096 = 5 ∧ 2 ≤ (0x5002#16).toNat % 4096) ∧
      ((0x6FFF#16).toNat / 4096 = 6 ∧ 3 ≤ (0x6FFF#16).toNat % 4096) ∧
      ((0x8003#16).toNat / 4096 = 8 ∧ 3 ≤ (0x8003#16).toNat % 4096) ∧
      ((0xA004#16).toNat / 4096 = 10 ∧ 4 ≤ (0xA004#16).toNat % 4096) ∧
      ((0xC003#16).toNat / 4096 = 12 ∧ 3 ≤ (0xC003#16).toNat % 4096) := by decide
theorem witness_FetchPastTheLastCellFaults :
    (running 1 2 3 4096 0).runState = .running ∧ (running 1 2 3 4096 0).next = 4096#13 := by decide
theorem witness_FaultingStepChangesNoData :
    ∃ t, step (running 1 2 3 4095 0xC003) = .next t ∧ t.runState = .faulted := ⟨_, rfl, rfl⟩

/-- A running core at the end of memory is sound. -/
theorem running_at_end_sound : SoundState (running 1 2 3 4096 0) :=
  ⟨rfl, fun _ => ⟨rfl, by decide, by decide⟩, fun h => absurd h (by decide)⟩

theorem witness_OnlyReachableMemoryFaultIsTheFetch :
    SoundState (running 1 2 3 4096 0) ∧
      ∃ t, step (running 1 2 3 4096 0) = .next t ∧ t.fault = some (.addressRange 4096) :=
  ⟨running_at_end_sound, _, rfl, rfl⟩
theorem witness_EveryStepKeepsTheInvariant :
    SoundState (running 1 2 3 4096 0) ∧ ∃ t, step (running 1 2 3 4096 0) = .next t :=
  ⟨running_at_end_sound, _, rfl⟩
theorem witness_EveryHostActionKeepsTheInvariant :
    SoundState (running 1 2 3 4096 0) ∧
      (act .step (running 1 2 3 4096 0)).1.runState = .faulted :=
  ⟨running_at_end_sound, rfl⟩
theorem witness_EveryReachableStateMeetsTheInvariant :
    Reachable (actAll [.load [0x6003], .run, .step] (State.resetWith 9 0 0)) ∧
      (actAll [.load [0x6003], .run, .step] (State.resetWith 9 0 0)).runState = .faulted :=
  ⟨⟨9, 0, 0, _, rfl⟩, by decide⟩
theorem witness_LoadCopiesTheProgramOrReportsCapacity :
    State.reset.runState = .halted ∧ 4096 < (List.replicate 4097 (1#16 : Word)).length ∧
      (List.replicate 4096 (1#16 : Word)).length ≤ 4096 ∧ 1 < [7#16, 8#16].length := by
  refine ⟨rfl, ?_, ?_, by decide⟩ <;> rw [List.length_replicate]
  decide
theorem witness_RunStartsAtAddressZero : State.reset.runState = .halted := rfl
theorem witness_TransactionsOutsideTheirPreconditionAreRefused :
    (running 1 2 3 0 0).runState ≠ .halted ∧ State.reset.runState ≠ .running := by decide
theorem witness_OutputTraceOnlyGrows :
    ∀ ra rb rc, HostAction.reset ra rb rc ∉ [HostAction.load [0xC001], .run, .step, .supply 5] := by
  simp
/-- A run with a next state, one that ends in HLT and one that faults. -/
theorem witness_RunTakesTheMachinesSteps :
    ((running 1 2 3 0 0xB000).runState = .running ∧
        ∃ t, step (running 1 2 3 0 0xB000) = .next t) ∧
      (runSteps 2 (running 1 2 3 0 0xB000)).runState = .halted ∧
      (runSteps 2 (running 1 2 3 4095 0xB000)).runState = .faulted :=
  ⟨⟨rfl, _, rfl⟩, by decide, by decide⟩
theorem witness_FaultedIsLeftOnlyByReset :
    (runSteps 1 (running 1 2 3 4096 0)).runState = .faulted ∧
      ∀ ra rb rc, HostAction.reset ra rb rc ∉ [HostAction.supply 5, .run, .step, .load [1]] :=
  ⟨by decide, by simp⟩
theorem witness_AssemblerEmitsOneWordPerRetainedLine :
    assemble "\nOUT\n\nx HLT".toList = .ok [0xC001, 0x0000] := by rfl
theorem witness_LabelsResolveToRetainedLineNumbers :
    firstPass 1 0 [] (splitLines "\nOUT\n\nx HLT".toList) =
      .ok ([⟨2, none, .fixed 12 1, .absent⟩, ⟨4, some ['x'], .plain 0, .absent⟩], [(['x'], 1)]) := by
  rfl
theorem witness_EmittedWordHoldsOpcodeAndOperand :
    15 ≤ 15 ∧ 4095 ≤ 4095 ∧ 4095 < 4096 ∧ 65535 ≤ 65535 ∧ 65535 < 65536 := by decide

end Sys2Proof.Tests
end

section
/-! Wrapping an integer to a word (00_scope.md R10): the rules of `wrap`, by which the results of the
arithmetic instructions and of the input port are read, and the statement about it. -/

namespace Sys2Proof.Machine

/-- R10: a wrapped integer is its least nonnegative residue; Lean's `%` on integers is that residue
for a negative integer too. -/
theorem toNat_wrap (v : Int) : ((wrap v).toNat : Int) = v % 65536 := by
  have hpos : 0 ≤ v % 65536 := Int.emod_nonneg v (by decide)
  simpa [wrap, BitVec.toNat_ofInt] using hpos

/-- A word is already reduced modulo 65536. -/
theorem toNat_emod_65536 (w : Word) : (w.toNat : Int) % 65536 = w.toNat := by
  have hlt : w.toNat < 65536 := w.isLt
  omega

/-- Existence and uniqueness at once: the words congruent to `v` are exactly `wrap v`. -/
theorem congruent_iff_eq_wrap (v : Int) (w : Word) :
    (w.toNat : Int) % 65536 = v % 65536 ↔ w = wrap v := by
  rw [toNat_emod_65536, ← toNat_wrap, Int.natCast_inj, BitVec.toNat_inj]

/-- The rule's formula, written for a remainder that may be negative, is the residue. -/
theorem toNat_wrap_formula (v : Int) :
    ((wrap v).toNat : Int) = ((v % 65536) + 65536) % 65536 := by
  rw [toNat_wrap, Int.add_emod_right, Int.emod_emod]

@[simp] theorem wrap_toNat (w : Word) : wrap (w.toNat : Int) = w :=
  ((congruent_iff_eq_wrap _ w).mp rfl).symm

/-- Settles O7: every part is read off the residue of a wrapped integer. -/
theorem wrapIsTheUniqueResidueWord : Obligations.WrapIsTheUniqueResidueWord :=
  ⟨congruent_iff_eq_wrap, toNat_wrap_formula, wrap_toNat,
    by decide, by decide, by decide, by decide⟩

end Sys2Proof.Machine
end

section
/-! The registers under the host's Load and Run (10_state.md R23). -/

namespace Sys2Proof.Machine

/-- R23: a Load leaves the state as it was or replaces the memory alone. -/
theorem doLoad_keeps_registers (program : List Word) (s : State) :
    (doLoad program s).1.a = s.a ∧ (doLoad program s).1.b = s.b ∧
      (doLoad program s).1.c = s.c := by
  obtain hsame | ⟨-, -, hcopy⟩ := doLoad_cases program s
  · simp [hsame]
  · simp [hcopy]

/-- R23: a Run leaves the state as it was or sets the pointers and the run state. -/
theorem doRun_keeps_registers (s : State) :
    (doRun s).1.a = s.a ∧ (doRun s).1.b = s.b ∧ (doRun s).1.c = s.c := by
  obtain hsame | ⟨-, hstart⟩ := doRun_cases s
  · simp [hsame]
  · simp [hstart]

/-- Settles O49: neither what a Load can do nor what a Run can do writes a register. -/
theorem loadAndRunKeepTheRegisters : Obligations.LoadAndRunKeepTheRegisters :=
  fun program s => ⟨doLoad_keeps_registers program s, doRun_keeps_registers s⟩

end Sys2Proof.Machine
end

section
/-! A read of memory at any integer address (20_memory.md R64). -/

namespace Sys2Proof.Machine

/-- R64 and R65 name the last cell, where `addressValid_iff` counts the cells. -/
theorem addressValid_iff_le_lastCell (addr : Int) :
    addressValid addr = true ↔ 0 ≤ addr ∧ addr ≤ 4095 := by
  have hsize : (Config.memWords : Int) = 4096 := rfl
  rw [addressValid_iff, hsize]
  omega

theorem memRead_of_valid (m : Memory) {addr : Int} (hvalid : addressValid addr = true) :
    memRead m addr = .ok (m.read addr.toNat) :=
  if_pos hvalid

theorem memRead_of_invalid (m : Memory) {addr : Int} (hinvalid : ¬ addressValid addr = true) :
    memRead m addr = .error (.addressRange addr) :=
  if_neg hinvalid

/-- Settles O32: the two answers of a read, split on the validity of the address. -/
theorem memoryReadValidatesItsAddress : Obligations.MemoryReadValidatesItsAddress := by
  intro m addr
  rw [← addressValid_iff_le_lastCell]
  exact ⟨memRead_of_valid m, memRead_of_invalid m⟩

end Sys2Proof.Machine
end

section
/-! The fields of a word as numbers (30_encoding.md R91, R92): quotient and remainder by 4096, and
the two functions of R92 on them. -/

namespace Sys2Proof

/-- R91: the top four bits are the quotient of a 16-bit word by 4096. -/
theorem toNat_opcodeOf (w : Word) : (opcodeOf w).toNat = w.toNat / 4096 := by
  have hlt : w.toNat / 4096 < 16 := Nat.div_lt_of_lt_mul w.isLt
  simp [opcodeOf, BitVec.extractLsb'_toNat, Nat.shiftRight_eq_div_pow, Nat.mod_eq_of_lt hlt]

/-- R91: the low twelve bits are the remainder of a word by 4096. -/
theorem toNat_dataOf (w : Word) : (dataOf w).toNat = w.toNat % 4096 := by
  simp [dataOf, BitVec.extractLsb'_toNat]

theorem unpackFields_eq (w : Word) : unpackFields w = ⟨w.toNat / 4096, w.toNat % 4096⟩ := by
  rw [unpackFields, toNat_opcodeOf, toNat_dataOf]

theorem unpackFields_opcode_le (w : Word) : (unpackFields w).opcode ≤ 15 :=
  Nat.le_of_lt_succ (opcodeOf w).isLt

theorem unpackFields_data_le (w : Word) : (unpackFields w).data ≤ 4095 :=
  Nat.le_of_lt_succ (dataOf w).isLt

/-- R92: packing what a word unpacks to gives its number back. -/
theorem packFields_unpackFields (w : Word) : packFields (unpackFields w) = w.toNat := by
  rw [unpackFields_eq]
  exact Nat.div_add_mod' w.toNat 4096

theorem packFields_lt {o d : Nat} (ho : o ≤ 15) (hd : d ≤ 4095) : packFields ⟨o, d⟩ < 65536 := by
  have hpack : packFields ⟨o, d⟩ = o * 4096 + d := rfl
  omega

/-- R92: unpacking a packed pair in range gives the pair back, since the packed number fits a word
and its data part is less than 4096. -/
theorem unpackFields_packFields {o d : Nat} (ho : o ≤ 15) (hd : d ≤ 4095) :
    unpackFields (BitVec.ofNat 16 (packFields ⟨o, d⟩)) = ⟨o, d⟩ := by
  have hfits : packFields ⟨o, d⟩ % 2 ^ 16 = o * 4096 + d := Nat.mod_eq_of_lt (packFields_lt ho hd)
  have hquot : (o * 4096 + d) / 4096 = o := by omega
  have hrem : (o * 4096 + d) % 4096 = d := by omega
  rw [unpackFields_eq, BitVec.toNat_ofNat, hfits, hquot, hrem]

/-- Settles O3: the formulas of both functions, their ranges, and each undoing the other. -/
theorem packAndUnpackAreInverse : Obligations.PackAndUnpackAreInverse :=
  ⟨fun _ _ => rfl,
    fun w => ⟨unpackFields_eq w, unpackFields_opcode_le w, unpackFields_data_le w,
      packFields_unpackFields w⟩,
    fun _ _ ho hd => ⟨packFields_lt ho hd, unpackFields_packFields ho hd⟩⟩

end Sys2Proof
end

section
/-! HLT (40_halt_reserved.md R140): its word, its effect, and that it alone changes the run
state. -/

namespace Sys2Proof

/-- R91: a packed word as a number. -/
theorem packWord_eq_ofNat (op : Opcode) (d : DataField) :
    packWord op d = BitVec.ofNat 16 (op.toNat * 4096 + d.toNat) := by
  have hquot : (packWord op d).toNat / 4096 = op.toNat := by
    rw [← toNat_opcodeOf, opcodeOf_packWord]
  have hrem : (packWord op d).toNat % 4096 = d.toNat := by
    rw [← toNat_dataOf, dataOf_packWord]
  rw [← hquot, ← hrem, Nat.div_add_mod', BitVec.ofNat_toNat, BitVec.setWidth_eq]

/-- R96: opcode 0 with any data field is HLT. -/
theorem decode_packWord_zero (d : DataField) : decode (packWord 0#4 d) = .legal (.hlt d) := by
  simp [decode]

/-- R140: the words 0x0000 to 0x0FFF are HLT. -/
theorem decode_ofNat_data (d : DataField) :
    decode (BitVec.ofNat 16 d.toNat) = .legal (.hlt d) := by
  simpa [packWord_eq_ofNat] using decode_packWord_zero d

end Sys2Proof

namespace Sys2Proof.Machine

/-- R140: HLT halts and advances the pointer pair. -/
theorem exec_hlt_eq (d : DataField) (s : State) :
    exec (.hlt d) s = .next { advance s with runState := .halted } := rfl

/-- R140: an instruction other than HLT leaves the run state as it was. -/
theorem exec_keeps_runState_or_hlt (i : Instr) (s : State) :
    (∃ d, i = .hlt d) ∨ ∃ t, exec i s = .next t ∧ t.runState = s.runState := by
  cases i
  case hlt d => exact .inl ⟨d, rfl⟩
  case sta addr => exact .inr ⟨_, execSta_eq addr s, rfl⟩
  case inp =>
    refine .inr ?_
    simp only [exec, execInp]
    split <;> exact ⟨_, rfl, by simp⟩
  case brz addr =>
    refine .inr ⟨_, branchWhen_eq (isZero s.a) addr s, ?_⟩
    split <;> rfl
  all_goals
    simp [exec, execLda, execLdb, execLdc, loadRegister_eq, execSwp0, execSwp1, swapWithA_eq,
      execAdr0, execAdr1, execAdr2, addRegister_eq, execAdm, execSbr0, execSbr1, execSbr2,
      subtractRegister_eq, execSbm, execSft0, execSft1, execSft2, execSft3, shiftRegister_eq,
      execRsv11, execOut, execOtc, execBrp, execJmp, branchWhen_eq]

/-- R140: the instruction that ends a run without a fault is HLT. -/
theorem hlt_of_exec_halts {i : Instr} {s t : State} (hrun : s.runState = .running)
    (hexec : exec i s = .next t) (hhalt : t.runState = .halted) : ∃ d, i = .hlt d := by
  obtain hhlt | ⟨u, hu, hkeep⟩ := exec_keeps_runState_or_hlt i s
  · exact hhlt
  · obtain rfl : u = t := Host.Outcome.next.inj (hu.symm.trans hexec)
    rw [hkeep, hrun] at hhalt
    exact absurd hhalt (by decide)

/-- R35: no step is taken while Halted. -/
theorem not_step_next_of_halted {s : State} (hhalt : s.runState = .halted) :
    ¬ ∃ u, step s = .next u := by
  rintro ⟨u, hstep⟩
  rw [running_of_step_next hstep] at hhalt
  exact absurd hhalt (by decide)

/-- R262: Run on a Halted core is accepted and starts it at the entry. -/
theorem doRun_of_halted {s : State} (hhalt : s.runState = .halted) :
    doRun s = ({ s with
      current := Config.entry, next := Config.entry, runState := .running }, .accepted) := by
  simp [doRun, hhalt]

/-- R140, R262: after HLT no step follows, and Run restarts the core at address 0 with the registers
and the memory that HLT found. -/
theorem halted_until_run {d : DataField} {s t : State} (hexec : exec (.hlt d) s = .next t) :
    (¬ ∃ u, step t = .next u) ∧
      ∃ u, doRun t = (u, .accepted) ∧ u.runState = .running ∧ u.next = 0#13 ∧ u.a = s.a ∧
        u.b = s.b ∧ u.c = s.c ∧ u.mem = s.mem := by
  obtain rfl : { advance s with runState := .halted } = t :=
    Host.Outcome.next.inj ((exec_hlt_eq d s).symm.trans hexec)
  exact ⟨not_step_next_of_halted rfl, _, doRun_of_halted rfl, rfl, rfl, rfl, rfl, rfl, rfl⟩

/-- Settles O19: the word and the effect of HLT, the Halted state it leaves, and that every other
instruction keeps the run state. -/
theorem haltEndsTheRun : Obligations.HaltEndsTheRun :=
  ⟨fun d s => ⟨decode_ofNat_data d, exec_hlt_eq d s, fun _ hexec => halted_until_run hexec⟩,
    rfl, fun _ _ _ => hlt_of_exec_halts⟩

end Sys2Proof.Machine
end

section
/-! The loads and the store (41_load_store.md R150 to R153): their words, their effects, and which
instructions write B, C and memory. -/

namespace Sys2Proof

/-- R93, R96: opcode 1 with any data field is LDA. -/
theorem decode_ofNat_lda (addr : DataField) :
    decode (BitVec.ofNat 16 (0x1000 + addr.toNat)) = .legal (.lda addr) := by
  have hword : packWord 1#4 addr = BitVec.ofNat 16 (0x1000 + addr.toNat) := packWord_eq_ofNat _ _
  simp [← hword, decode]

/-- R93, R96: opcode 2 with any data field is LDB. -/
theorem decode_ofNat_ldb (addr : DataField) :
    decode (BitVec.ofNat 16 (0x2000 + addr.toNat)) = .legal (.ldb addr) := by
  have hword : packWord 2#4 addr = BitVec.ofNat 16 (0x2000 + addr.toNat) := packWord_eq_ofNat _ _
  simp [← hword, decode]

/-- R93, R96: opcode 3 with any data field is LDC. -/
theorem decode_ofNat_ldc (addr : DataField) :
    decode (BitVec.ofNat 16 (0x3000 + addr.toNat)) = .legal (.ldc addr) := by
  have hword : packWord 3#4 addr = BitVec.ofNat 16 (0x3000 + addr.toNat) := packWord_eq_ofNat _ _
  simp [← hword, decode]

/-- R93, R96: opcode 4 with any data field is STA. -/
theorem decode_ofNat_sta (addr : DataField) :
    decode (BitVec.ofNat 16 (0x4000 + addr.toNat)) = .legal (.sta addr) := by
  have hword : packWord 4#4 addr = BitVec.ofNat 16 (0x4000 + addr.toNat) := packWord_eq_ofNat _ _
  simp [← hword, decode]

end Sys2Proof

namespace Sys2Proof.Machine

/-- R150. -/
theorem exec_lda_eq (addr : DataField) (s : State) :
    exec (.lda addr) s = .next { advance s with a := s.mem.read addr.toNat } :=
  loadRegister_eq .a addr s

/-- R151. -/
theorem exec_ldb_eq (addr : DataField) (s : State) :
    exec (.ldb addr) s = .next { advance s with b := s.mem.read addr.toNat } :=
  loadRegister_eq .b addr s

/-- R152. -/
theorem exec_ldc_eq (addr : DataField) (s : State) :
    exec (.ldc addr) s = .next { advance s with c := s.mem.read addr.toNat } :=
  loadRegister_eq .c addr s

/-- R153. -/
theorem exec_sta_eq (addr : DataField) (s : State) :
    exec (.sta addr) s = .next { advance s with mem := s.mem.write addr.toNat s.a } :=
  execSta_eq addr s

/-- R60: no cell has been written right after Reset. -/
theorem read_resetWith (ra rb rc : Word) (k : Nat) :
    (State.resetWith ra rb rc).mem.read k = 0#16 := by
  rw [resetWith_mem, Memory.read_nil]

/-- R21, R22: every instruction answers a next state, in which B is the old one unless the
instruction is LDB or SWP 0, and C the old one unless it is LDC or SWP 1. -/
theorem exec_next_b_c (i : Instr) (s : State) :
    ∃ t, exec i s = .next t ∧
      (t.b = s.b ∨ (∃ addr, i = .ldb addr) ∨ i = .swp0) ∧
      (t.c = s.c ∨ (∃ addr, i = .ldc addr) ∨ i = .swp1) := by
  cases i
  case lda addr => exact ⟨_, exec_lda_eq addr s, .inl rfl, .inl rfl⟩
  case ldb addr => exact ⟨_, exec_ldb_eq addr s, .inr (.inl ⟨addr, rfl⟩), .inl rfl⟩
  case ldc addr => exact ⟨_, exec_ldc_eq addr s, .inl rfl, .inr (.inl ⟨addr, rfl⟩)⟩
  case sta addr => exact ⟨_, exec_sta_eq addr s, .inl rfl, .inl rfl⟩
  case swp0 => exact ⟨_, swapWithA_eq .b s, .inr (.inr rfl), .inl rfl⟩
  case swp1 => exact ⟨_, swapWithA_eq .c s, .inl rfl, .inr (.inr rfl)⟩
  case adm addr | sbm addr => exact ⟨_, withRead_eq addr s _, .inl rfl, .inl rfl⟩
  case inp =>
    simp only [exec, execInp]
    split <;> exact ⟨_, rfl, .inl rfl, .inl rfl⟩
  case brz addr =>
    refine ⟨_, branchWhen_eq (isZero s.a) addr s, ?_⟩
    split <;> exact ⟨.inl rfl, .inl rfl⟩
  case brp addr =>
    exact ⟨redirect (advance s) addr, by simp [exec, execBrp, branchWhen_eq], .inl rfl, .inl rfl⟩
  all_goals exact ⟨_, rfl, .inl rfl, .inl rfl⟩

/-- R151, R160: the instructions that write B are LDB and SWP 0. -/
theorem ldb_or_swp0_of_exec_changes_b {i : Instr} {s t : State} (hexec : exec i s = .next t)
    (hchange : t.b ≠ s.b) : (∃ addr, i = .ldb addr) ∨ i = .swp0 := by
  obtain ⟨u, hu, hb, -⟩ := exec_next_b_c i s
  obtain rfl : u = t := Host.Outcome.next.inj (hu.symm.trans hexec)
  exact hb.resolve_left hchange

/-- R152, R161: the instructions that write C are LDC and SWP 1. -/
theorem ldc_or_swp1_of_exec_changes_c {i : Instr} {s t : State} (hexec : exec i s = .next t)
    (hchange : t.c ≠ s.c) : (∃ addr, i = .ldc addr) ∨ i = .swp1 := by
  obtain ⟨u, hu, -, hc⟩ := exec_next_b_c i s
  obtain rfl : u = t := Host.Outcome.next.inj (hu.symm.trans hexec)
  exact hc.resolve_left hchange

/-- R67, R153: the instruction that writes memory is STA. -/
theorem sta_of_exec_changes_mem {i : Instr} {s t : State} (hexec : exec i s = .next t)
    (hchange : t.mem ≠ s.mem) : ∃ addr, i = .sta addr := by
  obtain ⟨u, hu, hsame | ⟨addr, hsta, -⟩⟩ := exec_next_mem i s
  · obtain rfl : u = t := Host.Outcome.next.inj (hu.symm.trans hexec)
    exact absurd hsame hchange
  · exact ⟨addr, hsta⟩

/-- Settles O16: the three words and effects, the zeros of Reset, and the instructions that write B
or C. -/
theorem loadsWriteTheirRegister : Obligations.LoadsWriteTheirRegister :=
  ⟨fun addr => ⟨decode_ofNat_lda addr, decode_ofNat_ldb addr, decode_ofNat_ldc addr,
      fun s => ⟨exec_lda_eq addr s, exec_ldb_eq addr s, exec_ldc_eq addr s⟩⟩,
    read_resetWith,
    fun _ _ _ hexec =>
      ⟨ldb_or_swp0_of_exec_changes_b hexec, ldc_or_swp1_of_exec_changes_c hexec⟩⟩

/-- Settles O17: the memory that STA leaves is the old one with one cell written, and a read after
that write tells the cell from the others. -/
theorem storeWritesTheAddressedCell : Obligations.StoreWritesTheAddressedCell :=
  ⟨fun addr s => ⟨decode_ofNat_sta addr, s.mem.write addr.toNat s.a, exec_sta_eq addr s,
      Memory.read_write_same s.mem addr.toNat s.a,
      fun k => Memory.read_write_other s.mem addr.toNat k s.a⟩,
    fun _ _ _ => sta_of_exec_changes_mem⟩

end Sys2Proof.Machine
end

section
/-! The decoder as the inverse of the encoder (30_encoding.md R91, R95, R96): the words of an
instruction. -/

namespace Sys2Proof

/-- R91: a word is the packing of its two fields. -/
theorem packWord_of_fields {w : Word} {op : Opcode} {d : DataField}
    (hop : (opcodeOf w).toNat = op.toNat) (hdata : (dataOf w).toNat = d.toNat) :
    packWord op d = w := by
  rw [packWord_eq_ofNat, ← hop, ← hdata, toNat_opcodeOf, toNat_dataOf, Nat.div_add_mod',
    BitVec.ofNat_toNat, BitVec.setWidth_eq]

/-- D17: the whole data field of a shift is its selector. -/
theorem shiftSelector_eq_toNat (d : DataField) : shiftSelector d = d.toNat := rfl

/-- R95: an instruction the decoder finds has the decoded word's opcode and its data or selector, so
it encodes to that word. -/
theorem encode_of_decode_legal {w : Word} {i : Instr} (hlegal : decode w = .legal i) :
    encode i = w := by
  unfold decode at hlegal
  split at hlegal
  -- opcodes 5, 6, 8, 10 and 12, whose data field is a selector
  case h_6 | h_7 | h_9 | h_11 | h_13 =>
    rename_i hop
    simp only [decodeSwap, decodeAddRegister, decodeSubtractRegister, decodeShift,
      decodeInputOutput, shiftSelector_eq_toNat] at hlegal
    split at hlegal <;> cases hlegal <;> exact packWord_of_fields hop ‹(dataOf w).toNat = _›
  case h_17 => cases hlegal
  all_goals
    rename_i hop
    cases hlegal
    exact packWord_of_fields hop rfl

/-- R96: the decoder undoes the encoder. -/
theorem decode_encode (i : Instr) : decode (encode i) = .legal i := by
  cases i <;>
    simp [encode, decode, decodeSwap, decodeAddRegister, decodeSubtractRegister, decodeShift,
      decodeInputOutput, shiftSelector_eq_toNat]

/-- R96, R97: each instruction, its operand included, has exactly one word. -/
theorem decode_eq_legal_iff (w : Word) (i : Instr) : decode w = .legal i ↔ w = encode i :=
  ⟨fun hlegal => (encode_of_decode_legal hlegal).symm, fun hword => hword ▸ decode_encode i⟩

end Sys2Proof
end

section
/-! The register swaps (42_swap.md R160, R161): their words and their effects. -/

namespace Sys2Proof.Machine

/-- R160. -/
theorem exec_swp0_eq (s : State) : exec .swp0 s = .next { advance s with a := s.b, b := s.a } :=
  swapWithA_eq .b s

/-- R161. -/
theorem exec_swp1_eq (s : State) : exec .swp1 s = .next { advance s with a := s.c, c := s.a } :=
  swapWithA_eq .c s

/-- Settles O18: the two words are the encodings of SWP 0 and SWP 1, and each effect writes the two
old values crosswise. -/
theorem swapExchangesTwoRegisters : Obligations.SwapExchangesTwoRegisters :=
  ⟨fun w => decode_eq_legal_iff w .swp0, fun w => decode_eq_legal_iff w .swp1,
    fun s => ⟨exec_swp0_eq s, exec_swp1_eq s⟩⟩

end Sys2Proof.Machine
end

section
/-! Addition and subtraction (43_arithmetic.md R170 to R178): the results of the adder as numbers,
and the words and the effects of ADR, ADM, SBR and SBM. -/

namespace Sys2Proof

/-- R93, R96: opcode 7 with any data field is ADM. -/
theorem decode_ofNat_adm (addr : DataField) :
    decode (BitVec.ofNat 16 (0x7000 + addr.toNat)) = .legal (.adm addr) :=
  (decode_eq_legal_iff _ (.adm addr)).mpr (packWord_eq_ofNat 7#4 addr).symm

/-- R93, R96: opcode 9 with any data field is SBM. -/
theorem decode_ofNat_sbm (addr : DataField) :
    decode (BitVec.ofNat 16 (0x9000 + addr.toNat)) = .legal (.sbm addr) :=
  (decode_eq_legal_iff _ (.sbm addr)).mpr (packWord_eq_ofNat 9#4 addr).symm

end Sys2Proof

namespace Sys2Proof.Machine

theorem toNat_aluAdd (x y : Word) : (aluAdd x y).toNat = (x.toNat + y.toNat) % 65536 := by
  have hwrap : ((aluAdd x y).toNat : Int) = ((x.toNat : Int) + y.toNat) % 65536 := toNat_wrap _
  omega

/-- R179: the borrow of 65536 keeps the difference of two words from being cut off at 0. -/
theorem toNat_aluSub (x y : Word) : (aluSub x y).toNat = (x.toNat + 65536 - y.toNat) % 65536 := by
  have hwrap : ((aluSub x y).toNat : Int) = ((x.toNat : Int) - y.toNat) % 65536 := toNat_wrap _
  have hlt : y.toNat < 65536 := y.isLt
  omega

/-- A word is the numeral of its number. -/
theorem eq_ofNat_of_toNat_eq {w : Word} {n : Nat} (hnum : w.toNat = n) : w = BitVec.ofNat 16 n := by
  rw [← hnum, BitVec.ofNat_toNat, BitVec.setWidth_eq]

theorem aluAdd_eq_ofNat (x y : Word) :
    aluAdd x y = BitVec.ofNat 16 ((x.toNat + y.toNat) % 65536) :=
  eq_ofNat_of_toNat_eq (toNat_aluAdd x y)

theorem aluSub_eq_ofNat (x y : Word) :
    aluSub x y = BitVec.ofNat 16 ((x.toNat + 65536 - y.toNat) % 65536) :=
  eq_ofNat_of_toNat_eq (toNat_aluSub x y)

/-- R178: the adder is 16-bit addition. -/
theorem aluAdd_eq_add (x y : Word) : aluAdd x y = x + y :=
  BitVec.eq_of_toNat_eq ((toNat_aluAdd x y).trans (BitVec.toNat_add x y).symm)

/-- R174: a word less itself is 0. -/
theorem aluSub_self (x : Word) : aluSub x x = 0#16 := by
  rw [aluSub, Int.sub_self]
  decide

/-- R178: without a carry out of bit 15. -/
theorem toNat_aluAdd_of_le {x y : Word} (hfits : x.toNat + y.toNat ≤ 65535) :
    (aluAdd x y).toNat = x.toNat + y.toNat := by
  rw [toNat_aluAdd, Nat.mod_eq_of_lt (Nat.lt_succ_of_le hfits)]

/-- R178: with a carry out of bit 15, which is lost. -/
theorem toNat_aluAdd_of_ge {x y : Word} (hcarry : 65536 ≤ x.toNat + y.toNat) :
    (aluAdd x y).toNat = x.toNat + y.toNat - 65536 := by
  have hx : x.toNat < 65536 := x.isLt
  have hy : y.toNat < 65536 := y.isLt
  rw [toNat_aluAdd, Nat.mod_eq_sub_mod hcarry, Nat.mod_eq_of_lt (by omega)]

/-- R170. -/
theorem exec_adr0_eq (s : State) : exec .adr0 s = .next { advance s with a := aluAdd s.a s.a } :=
  addRegister_eq .a s

/-- R171. -/
theorem exec_adr1_eq (s : State) : exec .adr1 s = .next { advance s with a := aluAdd s.a s.b } :=
  addRegister_eq .b s

/-- R172. -/
theorem exec_adr2_eq (s : State) : exec .adr2 s = .next { advance s with a := aluAdd s.a s.c } :=
  addRegister_eq .c s

/-- R173. -/
theorem exec_adm_eq (addr : DataField) (s : State) :
    exec (.adm addr) s = .next { advance s with a := aluAdd s.a (s.mem.read addr.toNat) } :=
  withRead_eq addr s _

/-- R174. -/
theorem exec_sbr0_eq (s : State) : exec .sbr0 s = .next { advance s with a := 0#16 } := by
  rw [← aluSub_self s.a]
  exact subtractRegister_eq .a s

/-- R175. -/
theorem exec_sbr1_eq (s : State) : exec .sbr1 s = .next { advance s with a := aluSub s.a s.b } :=
  subtractRegister_eq .b s

/-- R176. -/
theorem exec_sbr2_eq (s : State) : exec .sbr2 s = .next { advance s with a := aluSub s.a s.c } :=
  subtractRegister_eq .c s

/-- R177. -/
theorem exec_sbm_eq (addr : DataField) (s : State) :
    exec (.sbm addr) s = .next { advance s with a := aluSub s.a (s.mem.read addr.toNat) } :=
  withRead_eq addr s _

/-- Settles O8: the two cases of the adder, its agreement with 16-bit addition, and the effects of
the four instructions that add. -/
theorem additionWrapsModulo65536 : Obligations.AdditionWrapsModulo65536 :=
  ⟨fun x y => ⟨toNat_aluAdd_of_le, toNat_aluAdd_of_ge, aluAdd_eq_add x y⟩,
    fun s addr => ⟨exec_adr0_eq s, exec_adr1_eq s, exec_adr2_eq s, exec_adm_eq addr s⟩⟩

/-- Settles O11: the three words are the encodings of ADR 0, 1 and 2, and each sum is the adder's
result as a number. -/
theorem addRegisterWritesWrappedSum : Obligations.AddRegisterWritesWrappedSum := by
  refine ⟨fun w => decode_eq_legal_iff w .adr0, fun w => decode_eq_legal_iff w .adr1,
    fun w => decode_eq_legal_iff w .adr2, fun s => ?_⟩
  simp only [← aluAdd_eq_ofNat]
  exact ⟨exec_adr0_eq s, exec_adr1_eq s, exec_adr2_eq s⟩

/-- Settles O12: the word of ADM, and its sum as the adder's result. -/
theorem addMemoryWritesWrappedSum : Obligations.AddMemoryWritesWrappedSum := by
  refine fun addr => ⟨decode_ofNat_adm addr, fun s => ?_⟩
  rw [← aluAdd_eq_ofNat]
  exact exec_adm_eq addr s

/-- Settles O13: the three words are the encodings of SBR 0, 1 and 2; SBR 0 clears A, and the other
differences are the subtracter's result as a number. -/
theorem subtractRegisterWritesWrappedDifference :
    Obligations.SubtractRegisterWritesWrappedDifference := by
  refine ⟨fun w => decode_eq_legal_iff w .sbr0, fun w => decode_eq_legal_iff w .sbr1,
    fun w => decode_eq_legal_iff w .sbr2, fun s => ?_⟩
  simp only [← aluSub_eq_ofNat]
  exact ⟨exec_sbr0_eq s, exec_sbr1_eq s, exec_sbr2_eq s⟩

/-- Settles O14: the word of SBM, and its difference as the subtracter's result. -/
theorem subtractMemoryWritesWrappedDifference :
    Obligations.SubtractMemoryWritesWrappedDifference := by
  refine fun addr => ⟨decode_ofNat_sbm addr, fun s => ?_⟩
  rw [← aluSub_eq_ofNat]
  exact exec_sbm_eq addr s

end Sys2Proof.Machine
end

section
/-! The branch on zero and the jump (46_branch.md R205, R207): their words and their effects. -/

namespace Sys2Proof

/-- R93, R96: opcode 13 with any data field is BRZ. -/
theorem decode_ofNat_brz (addr : DataField) :
    decode (BitVec.ofNat 16 (0xD000 + addr.toNat)) = .legal (.brz addr) :=
  (decode_eq_legal_iff _ (.brz addr)).mpr (packWord_eq_ofNat 13#4 addr).symm

/-- R93, R96: opcode 15 with any data field is JMP. -/
theorem decode_ofNat_jmp (addr : DataField) :
    decode (BitVec.ofNat 16 (0xF000 + addr.toNat)) = .legal (.jmp addr) :=
  (decode_eq_legal_iff _ (.jmp addr)).mpr (packWord_eq_ofNat 15#4 addr).symm

end Sys2Proof

namespace Sys2Proof.Machine

/-- R205: the pointers advance, and `next` is redirected when A is 0. -/
theorem exec_brz_eq (addr : DataField) (s : State) :
    exec (.brz addr) s =
      .next (if s.a = 0#16 then redirect (advance s) addr else advance s) := by
  have hbranch : exec (.brz addr) s = _ := branchWhen_eq (isZero s.a) addr s
  simpa only [isZero_iff] using hbranch

/-- R205: the branch taken. -/
theorem exec_brz_of_zero (addr : DataField) {s : State} (hzero : s.a = 0#16) :
    exec (.brz addr) s = .next { s with current := s.next, next := addr.setWidth 13 } := by
  rw [exec_brz_eq, if_pos hzero]
  rfl

/-- R205: the branch not taken. -/
theorem exec_brz_of_ne_zero (addr : DataField) {s : State} (hne : s.a ≠ 0#16) :
    exec (.brz addr) s = .next (advance s) := by
  rw [exec_brz_eq, if_neg hne]

/-- R207. -/
theorem exec_jmp_eq (addr : DataField) (s : State) :
    exec (.jmp addr) s = .next { s with current := s.next, next := addr.setWidth 13 } :=
  rfl

/-- R207: a jump to its own address finds in `next` the target it writes there. -/
theorem exec_jmp_self {addr : DataField} {s : State} (hself : s.next = addr.setWidth 13) :
    exec (.jmp addr) s = .next { s with current := s.next } := by
  rw [exec_jmp_eq, ← hself]

/-- Settles O24: the word of BRZ, and its effect in the two cases of A. -/
theorem branchIfZeroTestsTheWholeAccumulator :
    Obligations.BranchIfZeroTestsTheWholeAccumulator :=
  fun addr _ => ⟨decode_ofNat_brz addr, exec_brz_of_zero addr, exec_brz_of_ne_zero addr⟩

/-- Settles O26: the word and the effect of JMP, and the jump to its own address. -/
theorem jumpWritesNext : Obligations.JumpWritesNext :=
  fun addr s => ⟨decode_ofNat_jmp addr, exec_jmp_eq addr s, exec_jmp_self⟩

end Sys2Proof.Machine
end

section
/-! The decoder against the encoder, the illegal ranges and the opcode table (30_encoding.md R91 to
R97). -/

namespace Sys2Proof

/-- Settles O1: the decoder undoes the encoder. -/
theorem decodeOfEncodeIsIdentity : Obligations.DecodeOfEncodeIsIdentity := decode_encode

/-- Settles O2: the decoded instruction keeps the word's two fields. -/
theorem encodeOfDecodeIsIdentity : Obligations.EncodeOfDecodeIsIdentity :=
  fun _ _ => encode_of_decode_legal

/-- Settles O6: each word is the encoding of its instruction, and 0x6003 has a selector that opcode 6
does not list. -/
theorem writtenOutWordsDecode : Obligations.WrittenOutWordsDecode :=
  ⟨decode_encode (.hlt 4095#12), decode_encode (.lda 3#12), decode_encode (.ldb 4095#12),
    decode_encode (.sta 4095#12), decode_encode .swp1, decode_encode .adr2, by decide,
    decode_encode .sbr0, decode_encode .sft3, decode_encode (.rsv11 291#12), decode_encode .inp,
    decode_encode (.brz 7#12), decode_encode (.jmp 4095#12)⟩

/-- R101: the verdict is an instruction or `Illegal` of the word itself. -/
theorem decode_legal_or_illegal (w : Word) : (∃ i, decode w = .legal i) ∨ decode w = .illegal w := by
  cases hverdict : decode w with
  | legal i => exact .inl ⟨i, rfl⟩
  | illegal v => rw [decode_illegal_word hverdict]; exact .inr rfl

/-- R97: a word is illegal exactly when its selector is not a listed one. -/
theorem decode_eq_illegal_iff (w : Word) :
    decode w = .illegal w ↔ (unpackFields w).selectorListed = false := by
  have hop : (opcodeOf w).toNat < 16 := (opcodeOf w).isLt
  unfold decode
  split
  -- opcodes 5, 6, 8, 10 and 12, whose data field is a selector
  case h_6 | h_7 | h_9 | h_11 | h_13 =>
    rename_i hopcode
    simp only [decodeSwap, decodeAddRegister, decodeSubtractRegister, decodeShift,
      decodeInputOutput, shiftSelector_eq_toNat, Fields.selectorListed, unpackFields, hopcode,
      selectorCount]
    split <;> grind
  case h_17 => grind
  all_goals
    rename_i hopcode
    simp [Fields.selectorListed, unpackFields, hopcode, selectorCount]

/-- R97: the selectors that are not listed, opcode by opcode. -/
theorem selectorListed_eq_false_iff (o d : Nat) :
    (Fields.mk o d).selectorListed = false ↔
      (o = 5 ∧ 2 ≤ d) ∨ (o = 6 ∧ 3 ≤ d) ∨ (o = 8 ∧ 3 ≤ d) ∨ (o = 10 ∧ 4 ≤ d) ∨
        (o = 12 ∧ 3 ≤ d) := by
  simp only [Fields.selectorListed, selectorCount]
  split <;> grind

/-- R97: the illegal words, by the quotient and the remainder of the word by 4096. -/
theorem decode_eq_illegal_iff_ranges (w : Word) :
    decode w = .illegal w ↔
      (w.toNat / 4096 = 5 ∧ 2 ≤ w.toNat % 4096) ∨ (w.toNat / 4096 = 6 ∧ 3 ≤ w.toNat % 4096) ∨
      (w.toNat / 4096 = 8 ∧ 3 ≤ w.toNat % 4096) ∨ (w.toNat / 4096 = 10 ∧ 4 ≤ w.toNat % 4096) ∨
      (w.toNat / 4096 = 12 ∧ 3 ≤ w.toNat % 4096) := by
  rw [decode_eq_illegal_iff, unpackFields_eq, selectorListed_eq_false_iff]

/-- Settles O4: the illegal words are those whose selector is not listed, and every other word is
legal. -/
theorem illegalWordsAreTheListedRanges : Obligations.IllegalWordsAreTheListedRanges :=
  fun w => ⟨decode_eq_illegal_iff_ranges w, decode_legal_or_illegal w⟩

/-- R91: the top four bits of a word, masked, are the packing of its opcode with data 0. -/
theorem and_openMask (w : Word) : w &&& 0xF000#16 = packWord (opcodeOf w) 0#12 := by
  ext k hk
  have hmask : ∀ j (hj : j < 16), (0xF000#16)[j] = decide (12 ≤ j) := by decide
  by_cases hlow : k < 12
  · simp [packWord, hmask k hk, hlow]
  · have hbit : 12 + (k - 12) = k := by omega
    have hnibble : k - 12 < 4 := by omega
    simp [packWord, opcodeOf, hmask k hk, hlow, hk, hbit, hnibble]
    omega

/-- R96: a row with mask `0xFFFF` covers its one word. -/
theorem covers_fullMask (name : String) (v w : Word) :
    (OpcodeRow.mk name v 0xFFFF#16).covers w = (w == v) := by
  rw [OpcodeRow.covers, show (0xFFFF#16 : Word) = BitVec.allOnes 16 from rfl, BitVec.and_allOnes]

/-- The fields of a word tell it from the others. -/
theorem packWord_inj {op op' : Opcode} {d d' : DataField} :
    packWord op d = packWord op' d' ↔ op = op' ∧ d = d' := by
  refine ⟨fun hword => ⟨?_, ?_⟩, fun ⟨hop, hdata⟩ => hop ▸ hdata ▸ rfl⟩
  · simpa using congrArg opcodeOf hword
  · simpa using congrArg dataOf hword

/-- R96: a row with mask `0xF000` covers the words with its opcode. -/
theorem covers_openMask (name : String) (op : Opcode) (w : Word) :
    (OpcodeRow.mk name (packWord op 0#12) 0xF000#16).covers w = (opcodeOf w == op) := by
  rw [OpcodeRow.covers, and_openMask, Bool.eq_iff_iff, beq_iff_eq, beq_iff_eq, packWord_inj]
  exact and_iff_left rfl

/-- The instructions whose data field is an operand or ignored (R93, R96). -/
def openForms : List (DataField → Instr) :=
  [.hlt, .lda, .ldb, .ldc, .sta, .adm, .sbm, .rsv11, .brz, .brp, .jmp]

/-- The instructions whose data field is a selector (R93, R96). -/
def selectorForms : List Instr :=
  [.swp0, .swp1, .adr0, .adr1, .adr2, .sbr0, .sbr1, .sbr2, .sft0, .sft1, .sft2, .sft3, .inp, .out,
   .otc]

/-- The row of an open form: its word with data 0, the data left out of the mask. -/
def openRow (f : DataField → Instr) : OpcodeRow := ⟨(f 0#12).mnemonic, encode (f 0#12), 0xF000#16⟩

/-- The row of a selector form: its one word. -/
def selectorRow (i : Instr) : OpcodeRow := ⟨i.mnemonic, encode i, 0xFFFF#16⟩

theorem opcodeRows_eq_rows_of_forms :
    opcodeRows = openForms.map openRow ++ selectorForms.map selectorRow := by decide

/-- Every instruction is of one of the two kinds of form. -/
theorem open_or_selector (i : Instr) : (∃ f ∈ openForms, ∃ d, i = f d) ∨ i ∈ selectorForms := by
  cases i <;> simp [openForms, selectorForms]

/-- The data of an open form changes neither its opcode nor its mnemonic. -/
theorem openForm_word_and_mnemonic {f : DataField → Instr} (hf : f ∈ openForms) :
    ∃ op, ∀ d, encode (f d) = packWord op d ∧ (f d).mnemonic = (f 0#12).mnemonic := by
  simp only [openForms, List.mem_cons, List.not_mem_nil, or_false] at hf
  rcases hf with rfl | rfl | rfl | rfl | rfl | rfl | rfl | rfl | rfl | rfl | rfl <;>
    exact ⟨_, fun _ => ⟨rfl, rfl⟩⟩

theorem covers_openRow_iff {f : DataField → Instr} (hf : f ∈ openForms) (w : Word) :
    (openRow f).covers w = true ↔ ∃ d, w = encode (f d) := by
  obtain ⟨op, hform⟩ := openForm_word_and_mnemonic hf
  have hencode : ∀ d, encode (f d) = packWord op d := fun d => (hform d).1
  rw [openRow, hencode, covers_openMask, beq_iff_eq]
  constructor
  · rintro rfl
    exact ⟨dataOf w, (hencode _).symm ▸ (packWord_of_fields rfl rfl).symm⟩
  · rintro ⟨d, rfl⟩
    rw [hencode, opcodeOf_packWord]

theorem covers_selectorRow_iff (i : Instr) (w : Word) :
    (selectorRow i).covers w = true ↔ w = encode i := by
  rw [selectorRow, covers_fullMask, beq_iff_eq]

/-- R96: a row of the opcode table covers words of the instruction it names only. -/
theorem encode_of_covers {r : OpcodeRow} (hrow : r ∈ opcodeRows) {w : Word}
    (hcovers : r.covers w = true) : ∃ i, w = encode i ∧ r.mnemonic = i.mnemonic := by
  rw [opcodeRows_eq_rows_of_forms, List.mem_append, List.mem_map, List.mem_map] at hrow
  obtain ⟨f, hf, rfl⟩ | ⟨i, -, rfl⟩ := hrow
  · obtain ⟨d, hword⟩ := (covers_openRow_iff hf w).1 hcovers
    obtain ⟨op, hform⟩ := openForm_word_and_mnemonic hf
    exact ⟨f d, hword, (hform d).2.symm⟩
  · exact ⟨i, (covers_selectorRow_iff i w).1 hcovers, rfl⟩

/-- R96: an instruction's word is covered by a row that names the instruction. -/
theorem exists_row_covers_encode (i : Instr) :
    ∃ r ∈ opcodeRows, r.covers (encode i) = true ∧ r.mnemonic = i.mnemonic := by
  simp only [opcodeRows_eq_rows_of_forms, List.mem_append]
  obtain ⟨f, hf, d, rfl⟩ | hi := open_or_selector i
  · obtain ⟨op, hform⟩ := openForm_word_and_mnemonic hf
    exact ⟨openRow f, .inl (List.mem_map_of_mem hf), (covers_openRow_iff hf _).2 ⟨d, rfl⟩,
      (hform d).2.symm⟩
  · exact ⟨selectorRow i, .inr (List.mem_map_of_mem hi), (covers_selectorRow_iff i _).2 rfl, rfl⟩

/-- R96: no two rows have one mnemonic. -/
theorem opcodeRows_mnemonics_nodup : (opcodeRows.map OpcodeRow.mnemonic).Nodup := by decide

/-- R96: the rows that cover an instruction's word are one, and it names the instruction. -/
theorem rows_covering_encode (i : Instr) :
    (opcodeRows.filter fun r => r.covers (encode i)).map OpcodeRow.mnemonic = [i.mnemonic] := by
  have hnodup := opcodeRows_mnemonics_nodup.sublist
    ((List.filter_sublist (p := fun r => r.covers (encode i))).map OpcodeRow.mnemonic)
  refine List.perm_singleton.1 ((List.perm_ext_iff_of_nodup hnodup (List.nodup_singleton _)).2
    fun name => ?_)
  simp only [List.mem_map, List.mem_filter, List.mem_singleton]
  constructor
  · rintro ⟨r, ⟨hrow, hcovers⟩, rfl⟩
    obtain ⟨j, hword, hname⟩ := encode_of_covers hrow hcovers
    have hsame : i = j := Decoded.legal.inj
      ((decode_encode i).symm.trans ((congrArg decode hword).trans (decode_encode j)))
    rw [hname, hsame]
  · rintro rfl
    obtain ⟨r, hrow, hcovers, hname⟩ := exists_row_covers_encode i
    exact ⟨r, ⟨hrow, hcovers⟩, hname⟩

/-- R97: a word that a row covers is not illegal. -/
theorem decode_ne_illegal_of_covers {r : OpcodeRow} (hrow : r ∈ opcodeRows) {w : Word}
    (hcovers : r.covers w = true) : decode w ≠ .illegal w := by
  obtain ⟨i, rfl, -⟩ := encode_of_covers hrow hcovers
  simp [decode_encode]

/-- Settles O5: a legal word is the word of its instruction, which one row covers, and a word that a
row covers is legal. -/
theorem opcodeTableRowsPartitionLegalWords : Obligations.OpcodeTableRowsPartitionLegalWords := by
  refine fun w => ⟨fun i hlegal => ?_, fun hillegal => ?_⟩
  · rw [← encode_of_decode_legal hlegal]
    exact rows_covering_encode i
  · exact List.filter_eq_nil_iff.2 fun r hrow hcovers =>
      decode_ne_illegal_of_covers hrow hcovers hillegal

end Sys2Proof
end

section
/-! The subtractor, the shifter, and the remaining instructions: SFT (44_shift.md), RSV11
(40_halt_reserved.md R141), INP, OUT and OTC (45_io.md), BRP (46_branch.md R206). -/

namespace Sys2Proof

/-- R93, R96: opcode 11 with any data field is RSV11. -/
theorem decode_ofNat_rsv11 (d : DataField) :
    decode (BitVec.ofNat 16 (0xB000 + d.toNat)) = .legal (.rsv11 d) :=
  (decode_eq_legal_iff _ (.rsv11 d)).mpr (packWord_eq_ofNat 11#4 d).symm

/-- R93, R96: opcode 14 with any data field is BRP. -/
theorem decode_ofNat_brp (addr : DataField) :
    decode (BitVec.ofNat 16 (0xE000 + addr.toNat)) = .legal (.brp addr) :=
  (decode_eq_legal_iff _ (.brp addr)).mpr (packWord_eq_ofNat 14#4 addr).symm

end Sys2Proof

namespace Sys2Proof.Machine

/-- R179: without a borrow. -/
theorem toNat_aluSub_of_le {x y : Word} (hle : y.toNat ≤ x.toNat) :
    (aluSub x y).toNat = x.toNat - y.toNat := by
  have hx : x.toNat < 65536 := x.isLt
  rw [toNat_aluSub]
  omega

/-- R179: with a borrow of 65536. -/
theorem toNat_aluSub_of_lt {x y : Word} (hlt : x.toNat < y.toNat) :
    (aluSub x y).toNat = x.toNat + 65536 - y.toNat := by
  have hy : y.toNat < 65536 := y.isLt
  rw [toNat_aluSub]
  omega

/-- R179: the hardware subtracts by adding the complement and 1. -/
theorem aluSub_eq_complement (x y : Word) : aluSub x y = x + (65535#16 - y) + 1#16 := by
  have hy : y.toNat < 65536 := y.isLt
  apply BitVec.eq_of_toNat_eq
  simp only [toNat_aluSub, BitVec.toNat_add, BitVec.toNat_sub, BitVec.toNat_ofNat]
  omega

/-- Settles O9: the two cases of the subtractor, its complement form, and the effects of the four
instructions that subtract. -/
theorem subtractionWrapsModulo65536 : Obligations.SubtractionWrapsModulo65536 :=
  ⟨fun x y => ⟨toNat_aluSub_of_le, toNat_aluSub_of_lt, aluSub_eq_complement x y⟩,
    fun s addr => ⟨subtractRegister_eq .a s, exec_sbr1_eq s, exec_sbr2_eq s, exec_sbm_eq addr s⟩⟩

/-- R10: a wrapped natural number is its remainder. -/
theorem toNat_wrap_natCast (n : Nat) : (wrap (n : Int)).toNat = n % 65536 := by
  have hwrap := toNat_wrap n
  omega

/-- R10: a wrapped integer as the numeral of its residue. -/
theorem wrap_eq_ofNat (v : Int) : wrap v = BitVec.ofNat 16 (v % 65536).toNat := by
  rw [← toNat_wrap, Int.toNat_natCast, BitVec.ofNat_toNat, BitVec.setWidth_eq]

/-- D33: the amount is the whole register value. -/
theorem shiftAmount_eq_toNat (y : Word) : shiftAmount y = y.toNat := rfl

/-- R189, to the left. -/
theorem toNat_aluShift_left (x y : Word) :
    (aluShift .left x y).toNat = x.toNat * 2 ^ y.toNat % 65536 := by
  rw [aluShift, shiftAmount_eq_toNat, toNat_wrap_natCast]

/-- R189, to the right: the quotient of a word is a word. -/
theorem toNat_aluShift_right (x y : Word) :
    (aluShift .right x y).toNat = x.toNat / 2 ^ y.toNat := by
  rw [aluShift, shiftAmount_eq_toNat, toNat_wrap_natCast]
  exact Nat.mod_eq_of_lt ((Nat.div_le_self _ _).trans_lt x.isLt)

/-- R189: a shift by 0 keeps the word. -/
theorem aluShift_zero (dir : ShiftDir) (x : Word) : aluShift dir x 0#16 = x := by
  cases dir <;> simp [aluShift, shiftAmount_eq_toNat]

/-- R189, D33: a shift by 16 or more loses every bit. -/
theorem aluShift_of_ge {y : Word} (hlarge : 16 ≤ y.toNat) (dir : ShiftDir) (x : Word) :
    aluShift dir x y = 0#16 := by
  have hpow : 2 ^ 16 ∣ 2 ^ y.toNat := Nat.pow_dvd_pow 2 hlarge
  apply BitVec.eq_of_toNat_eq
  cases dir
  · rw [toNat_aluShift_left]
    exact Nat.mod_eq_zero_of_dvd (hpow.mul_left _)
  · rw [toNat_aluShift_right]
    exact Nat.div_eq_of_lt (x.isLt.trans_le (Nat.le_of_dvd (Nat.two_pow_pos _) hpow))

/-- R189: the high bits of an amount are all 0 exactly when it is less than 16. -/
theorem highBits_eq_zero_iff (y : Word) : y.extractLsb' 4 12 = 0#12 ↔ y.toNat < 16 := by
  have hy : y.toNat < 65536 := y.isLt
  rw [← BitVec.toNat_inj, BitVec.extractLsb'_toNat, Nat.shiftRight_eq_div_pow, BitVec.toNat_ofNat]
  omega

/-- R189: the barrel shifter is the shift by the whole amount. -/
theorem aluShift_eq_barrelShift (dir : ShiftDir) (x y : Word) :
    aluShift dir x y = barrelShift dir x y := by
  by_cases hsmall : y.toNat < 16
  · have hlow : (y.extractLsb' 0 4).toNat = y.toNat := by
      simp [BitVec.extractLsb'_toNat, Nat.mod_eq_of_lt hsmall]
    apply BitVec.eq_of_toNat_eq
    rw [barrelShift.eq_def, if_pos ((highBits_eq_zero_iff y).2 hsmall), hlow]
    cases dir
    · simp [toNat_aluShift_left, BitVec.toNat_shiftLeft, Nat.shiftLeft_eq]
    · simp [toNat_aluShift_right, BitVec.toNat_ushiftRight, Nat.shiftRight_eq_div_pow]
  · rw [barrelShift.eq_def, if_neg (mt (highBits_eq_zero_iff y).1 hsmall)]
    exact aluShift_of_ge (Nat.le_of_not_lt hsmall) dir x

/-- Settles O10: the two shifts as numbers, the amounts 0 and at least 16, and the barrel shifter. -/
theorem shiftAmountIsTakenWhole : Obligations.ShiftAmountIsTakenWhole := by
  refine fun x y => ⟨toNat_aluShift_left x y, toNat_aluShift_right x y, ?_,
    fun hlarge => ⟨aluShift_of_ge hlarge _ x, aluShift_of_ge hlarge _ x⟩,
    aluShift_eq_barrelShift _ x y, aluShift_eq_barrelShift _ x y⟩
  rintro rfl
  exact ⟨aluShift_zero _ x, aluShift_zero _ x⟩

/-- R185. -/
theorem exec_sft0_eq (s : State) :
    exec .sft0 s = .next { advance s with a := aluShift .left s.a s.b } := rfl

/-- R186. -/
theorem exec_sft1_eq (s : State) :
    exec .sft1 s = .next { advance s with a := aluShift .left s.a s.c } := rfl

/-- R187. -/
theorem exec_sft2_eq (s : State) :
    exec .sft2 s = .next { advance s with a := aluShift .right s.a s.b } := rfl

/-- R188. -/
theorem exec_sft3_eq (s : State) :
    exec .sft3 s = .next { advance s with a := aluShift .right s.a s.c } := rfl

/-- Settles O15: the four words are the encodings of SFT 0 to 3, and each result is the shifter's as
a number. -/
theorem shiftWritesShiftedAccumulator : Obligations.ShiftWritesShiftedAccumulator := by
  refine ⟨fun w => decode_eq_legal_iff w .sft0, fun w => decode_eq_legal_iff w .sft1,
    fun w => decode_eq_legal_iff w .sft2, fun w => decode_eq_legal_iff w .sft3, fun s => ?_⟩
  simp only [← eq_ofNat_of_toNat_eq (toNat_aluShift_left _ _),
    ← eq_ofNat_of_toNat_eq (toNat_aluShift_right _ _)]
  exact ⟨exec_sft0_eq s, exec_sft1_eq s, exec_sft2_eq s, exec_sft3_eq s⟩

/-- R141. -/
theorem exec_rsv11_eq (d : DataField) (s : State) : exec (.rsv11 d) s = .next (advance s) := rfl

/-- Settles O20: the word and the effect of RSV11. -/
theorem reservedOpcodeDoesNothing : Obligations.ReservedOpcodeDoesNothing :=
  fun d s => ⟨decode_ofNat_rsv11 d, exec_rsv11_eq d s⟩

/-- R38: the hold of INP on an empty source. -/
theorem exec_inp_of_nil {s : State} (hempty : s.input = []) : exec .inp s = .next s := by
  simp [exec, execInp, hempty]

/-- R195. -/
theorem exec_inp_of_cons {s : State} {v : Int} {rest : List Int} (hsource : s.input = v :: rest) :
    exec .inp s = .next { advance s with a := wrap v, input := rest } := by
  simp [exec, execInp, hsource]

/-- Settles O21: the word of INP, and the residue it takes from the source. -/
theorem inputWritesTheFrontInteger : Obligations.InputWritesTheFrontInteger := by
  refine ⟨fun w => decode_eq_legal_iff w .inp, fun s v rest hsource => ?_⟩
  rw [← wrap_eq_ofNat]
  exact exec_inp_of_cons hsource

/-- R196. -/
theorem exec_out_eq (s : State) : exec .out s = .next (emit (advance s) .num) := rfl

/-- R197. -/
theorem exec_otc_eq (s : State) : exec .otc s = .next (emit (advance s) .chr) := rfl

/-- Settles O23: the words and the effects of OUT and OTC. -/
theorem outputAppendsOneEvent : Obligations.OutputAppendsOneEvent :=
  ⟨fun w => decode_eq_legal_iff w .out, fun w => decode_eq_legal_iff w .otc,
    fun s => ⟨exec_out_eq s, exec_otc_eq s⟩⟩

/-- R206: BRP, whose test always holds, is JMP. -/
theorem exec_brp_eq_jmp (addr : DataField) (s : State) :
    exec (.brp addr) s = exec (.jmp addr) s := by
  simp [exec, execBrp, branchWhen_eq, execJmp]

/-- Settles O25: the word of BRP, and its effect as that of JMP. -/
theorem branchIfAtLeastZeroIsAlwaysTaken : Obligations.BranchIfAtLeastZeroIsAlwaysTaken :=
  fun addr s => ⟨decode_ofNat_brp addr, (exec_brp_eq_jmp addr s).trans (exec_jmp_eq addr s),
    exec_brp_eq_jmp addr s⟩

end Sys2Proof.Machine
end

section
/-! The datapath as a second reading of the instructions (30_encoding.md R102), and what is read off
it: which instructions can change which part of the state. -/

namespace Sys2Proof.Machine

/-- R102: of the rows of the control table, only that of INP takes input. -/
theorem takesInput_iff (i : Instr) : (controlOf (.legal i)).takesInput = true ↔ i = .inp := by
  cases i <;> simp [controlOf]

/-- R102: no instruction's row raises the fault of an illegal word. -/
theorem invalid_controlOf_legal (i : Instr) : (controlOf (.legal i)).invalid = none := by
  cases i <;> rfl

/-- R38: the instruction is INP and its source is empty. -/
def inputMissing (i : Instr) (s : State) : Prop := i = .inp ∧ s.input = []

/-- R102: the datapath under an instruction's row holds or latches. -/
theorem datapath_of_inputMissing {i : Instr} {s : State} (hmissing : inputMissing i s) :
    datapath (controlOf (.legal i)) s = .next s := by
  obtain ⟨rfl, hempty⟩ := hmissing
  simp [datapath, controlOf, hempty]

theorem datapath_of_not_inputMissing {i : Instr} {s : State} (hready : ¬ inputMissing i s) :
    datapath (controlOf (.legal i)) s = .next (latch (controlOf (.legal i)) s) := by
  have hgo : ¬ ((controlOf (.legal i)).takesInput && s.input.isEmpty) = true := by
    rwa [Bool.and_eq_true, takesInput_iff, List.isEmpty_iff]
  rw [datapath, invalid_controlOf_legal]
  exact if_neg hgo

/-- R102: INP latches the word of the front integer and the rest of the source. -/
theorem latch_inp_of_cons {s : State} {v : Int} {rest : List Int} (hsource : s.input = v :: rest) :
    latch (controlOf (.legal .inp)) s = { advance s with a := wrap v, input := rest } := by
  simp [latch, controlOf, registerAfter, sourceValue, portInput, nextPointer, hsource, advance]

/-- R102: the latched outputs are what the instruction's own rule gives. -/
theorem exec_eq_latch {i : Instr} {s : State} (hready : ¬ inputMissing i s) :
    exec i s = .next (latch (controlOf (.legal i)) s) := by
  cases i
  case inp =>
    obtain ⟨v, rest, hsource⟩ := List.exists_cons_of_ne_nil fun hempty => hready ⟨rfl, hempty⟩
    rw [exec_inp_of_cons hsource, latch_inp_of_cons hsource]
  case lda addr | ldb addr | ldc addr => exact loadRegister_eq _ addr s
  case sta addr => exact execSta_eq addr s
  case adr0 => rw [exec_adr0_eq, aluAdd_eq_add]; rfl
  case adr1 => rw [exec_adr1_eq, aluAdd_eq_add]; rfl
  case adr2 => rw [exec_adr2_eq, aluAdd_eq_add]; rfl
  case adm addr => rw [exec_adm_eq, aluAdd_eq_add]; rfl
  case sbr0 => rw [exec, execSbr0, subtractRegister_eq, aluSub_eq_complement]; rfl
  case sbr1 => rw [exec_sbr1_eq, aluSub_eq_complement]; rfl
  case sbr2 => rw [exec_sbr2_eq, aluSub_eq_complement]; rfl
  case sbm addr => rw [exec_sbm_eq, aluSub_eq_complement]; rfl
  case sft0 => rw [exec_sft0_eq, aluShift_eq_barrelShift]; rfl
  case sft1 => rw [exec_sft1_eq, aluShift_eq_barrelShift]; rfl
  case sft2 => rw [exec_sft2_eq, aluShift_eq_barrelShift]; rfl
  case sft3 => rw [exec_sft3_eq, aluShift_eq_barrelShift]; rfl
  case brz addr =>
    by_cases hzero : s.a = 0#16
    · rw [exec_brz_of_zero addr hzero]
      simp [latch, controlOf, registerAfter, nextPointer, aluTest, hzero, zext13]
    · rw [exec_brz_of_ne_zero addr hzero]
      simp [latch, controlOf, registerAfter, nextPointer, aluTest, hzero, advance]
  case brp addr => rw [exec_brp_eq_jmp]; rfl
  all_goals rfl

/-- What an instruction does: INP on an empty source holds, and everything else latches the outputs
of the sub-blocks under the instruction's row of the control table. -/
theorem exec_hold_or_latch (i : Instr) (s : State) :
    (inputMissing i s ∧ exec i s = .next s) ∨
      (¬ inputMissing i s ∧ exec i s = .next (latch (controlOf (.legal i)) s)) := by
  by_cases hmissing : inputMissing i s
  · obtain ⟨rfl, hempty⟩ := hmissing
    exact .inl ⟨⟨rfl, hempty⟩, exec_inp_of_nil hempty⟩
  · exact .inr ⟨hmissing, exec_eq_latch hmissing⟩

/-- The same of a given next state. -/
theorem exec_next_cases {i : Instr} {s t : State} (hexec : exec i s = .next t) :
    (inputMissing i s ∧ t = s) ∨
      (¬ inputMissing i s ∧ t = latch (controlOf (.legal i)) s) := by
  obtain ⟨hmissing, hhold⟩ | ⟨hready, hlatch⟩ := exec_hold_or_latch i s
  · exact .inl ⟨hmissing, Host.Outcome.next.inj (hexec.symm.trans hhold)⟩
  · exact .inr ⟨hready, Host.Outcome.next.inj (hexec.symm.trans hlatch)⟩

theorem execWord_of_legal {w : Word} {i : Instr} (hlegal : decode w = .legal i) (s : State) :
    execWord w s = exec i s := by
  rw [execWord, hlegal]

/-- R223: the fault of an illegal word carries the word. -/
theorem execWord_of_illegal {w : Word} (hillegal : decode w = .illegal w) (s : State) :
    execWord w s = takeFault (.invalidInstruction w) s := by
  rw [execWord, hillegal]

/-- Settles O44: an illegal word takes the same fault in both designs, and an instruction holds or
latches in both. -/
theorem datapathAgreesWithTheInstructionRules :
    Obligations.DatapathAgreesWithTheInstructionRules := by
  intro w s
  obtain ⟨i, hlegal⟩ | hillegal := decode_legal_or_illegal w
  · rw [execWord_of_legal hlegal, hlegal]
    obtain ⟨hmissing, hexec⟩ | ⟨hready, hexec⟩ := exec_hold_or_latch i s
    · rw [hexec, datapath_of_inputMissing hmissing]
    · rw [hexec, datapath_of_not_inputMissing hready]
  · rw [execWord_of_illegal hillegal, hillegal]
    rfl

/-- R22: the register file keeps a register that no write of the row names. -/
theorem registerAfter_of_not_written (s : State) (readData alu : Word) (r : Reg)
    (writes : List (Reg × WriteSource)) (hfree : ∀ write ∈ writes, write.1 ≠ r) :
    registerAfter s readData alu r writes = readReg s r := by
  induction writes with
  | nil => rfl
  | cons write writes ih =>
    obtain ⟨hhead, htail⟩ := List.forall_mem_cons.1 hfree
    rw [registerAfter, if_neg (Ne.symm hhead)]
    exact ih htail

/-- R21: the instructions whose rule names A as its target. -/
def writesA (i : Instr) : Bool := (controlOf (.legal i)).writes.any fun write => write.1 == .a

/-- R21: an instruction that does not write A leaves it. -/
theorem exec_keeps_a {i : Instr} {s t : State} (hexec : exec i s = .next t)
    (hfree : writesA i = false) : t.a = s.a := by
  obtain ⟨-, rfl⟩ | ⟨-, rfl⟩ := exec_next_cases hexec
  · rfl
  · refine registerAfter_of_not_written s _ _ .a _ fun write hmem hname => ?_
    exact List.any_eq_false.1 hfree write hmem (beq_iff_eq.2 hname)

/-- Settles O27: the writers of B and C, and the ten forms whose rows have no write of A. -/
theorem onlyNamedInstructionsWriteRegisters : Obligations.OnlyNamedInstructionsWriteRegisters := by
  intro i s t hexec
  refine ⟨ldb_or_swp0_of_exec_changes_b hexec, ldc_or_swp1_of_exec_changes_c hexec,
    fun hchange => ?_⟩
  have hwrites : writesA i = true := (Bool.not_eq_false _).mp fun hfree =>
    hchange (exec_keeps_a hexec hfree)
  refine ⟨?_, ?_, fun d => ⟨?_, ?_, ?_, ?_, ?_, ?_, ?_, ?_⟩⟩ <;> rintro rfl <;> cases hwrites

/-- R27: of the rows of the control table, only that of HLT halts. -/
theorem hlt_of_halts {i : Instr} (hhalts : (controlOf (.legal i)).halts = true) :
    ∃ d, i = .hlt d := by
  cases i
  case hlt d => exact ⟨d, rfl⟩
  all_goals cases hhalts

/-- R34: of the rows of the control table, only those of OUT and OTC send an event. -/
theorem out_or_otc_of_output {i : Instr} {kind : OutKind}
    (houtput : (controlOf (.legal i)).output = some kind) :
    (i = .out ∧ kind = .num) ∨ (i = .otc ∧ kind = .chr) := by
  cases i <;> cases houtput <;> simp

/-- R102: the latch keeps the run state unless the row halts. -/
theorem halts_of_latch_runState {c : Control} {s : State}
    (hchange : (latch c s).runState ≠ s.runState) : c.halts = true := by
  by_contra hgo
  exact hchange (if_neg hgo)

/-- R102: the latch keeps the input source unless the row takes input. -/
theorem takesInput_of_latch_input {c : Control} {s : State}
    (hchange : (latch c s).input ≠ s.input) : c.takesInput = true := by
  by_contra hkeep
  exact hchange (if_neg hkeep)

/-- R102: INP latches the source less its front. -/
theorem latch_inp_input (s : State) :
    (latch (controlOf (.legal .inp)) s).input = s.input.tail := rfl

/-- R34, R102: the latch keeps the output trace or appends the row's event with the value of A. -/
theorem latch_output_cases (c : Control) (s : State) :
    (latch c s).output = s.output ∨
      ∃ kind, c.output = some kind ∧ (latch c s).output = s.output ++ [⟨kind, s.a⟩] := by
  cases hrow : c.output with
  | none => exact .inl (by simp [latch, hrow])
  | some kind => exact .inr ⟨kind, rfl, by simp [latch, hrow]⟩

/-- Settles O28: the hold changes nothing, and of the latched outputs the rows of HLT, INP, OUT and
OTC alone change the run state, the input source and the output trace. -/
theorem onlyNamedInstructionsChangeControlState :
    Obligations.OnlyNamedInstructionsChangeControlState := by
  intro i s
  obtain ⟨-, hexec⟩ | ⟨hready, hexec⟩ := exec_hold_or_latch i s
  · exact ⟨s, hexec, rfl, absurd rfl, absurd rfl, absurd rfl⟩
  refine ⟨_, hexec, rfl, fun hchange => hlt_of_halts (halts_of_latch_runState hchange),
    fun hchange => ?_, fun hchange => ?_⟩
  · obtain rfl := (takesInput_iff i).1 (takesInput_of_latch_input hchange)
    obtain ⟨v, rest, hsource⟩ := List.exists_cons_of_ne_nil fun hempty => hready ⟨rfl, hempty⟩
    exact ⟨rfl, v, by rw [latch_inp_input, hsource, List.tail_cons]⟩
  · obtain hsame | ⟨kind, hrow, houtput⟩ := latch_output_cases (controlOf (.legal i)) s
    · exact absurd hsame hchange
    · obtain ⟨rfl, rfl⟩ | ⟨rfl, rfl⟩ := out_or_otc_of_output hrow
      · exact .inl ⟨rfl, houtput⟩
      · exact .inr ⟨rfl, houtput⟩

end Sys2Proof.Machine
end

section
/-! A write of memory at any integer address (20_memory.md R65, R68), and the canonical form. -/

namespace Sys2Proof.Machine

theorem memWrite_of_invalid_address (m : Memory) {addr : Int} (v : Int)
    (hinvalid : ¬ addressValid addr = true) : memWrite m addr v = .error (.addressRange addr) :=
  if_neg hinvalid

theorem memWrite_of_invalid_value (m : Memory) {addr v : Int} (haddr : addressValid addr = true)
    (hinvalid : ¬ valueValid v = true) : memWrite m addr v = .error (.valueRange addr v) := by
  rw [memWrite, if_pos haddr, if_neg hinvalid]

theorem memWrite_of_valid (m : Memory) {addr v : Int} (haddr : addressValid addr = true)
    (hvalue : valueValid v = true) :
    memWrite m addr v = .ok (m.write addr.toNat (BitVec.ofInt 16 v)) := by
  rw [memWrite, if_pos haddr, if_pos hvalue]

/-- R65 names the last value, where `valueValid_iff` counts the values. -/
theorem valueValid_iff_le_lastValue (v : Int) : valueValid v = true ↔ 0 ≤ v ∧ v ≤ 65535 := by
  rw [valueValid_iff]
  omega

/-- R10: an integer that is a word's value is the value of its word. -/
theorem toNat_ofInt_of_valueValid {v : Int} (hvalue : valueValid v = true) :
    ((BitVec.ofInt 16 v).toNat : Int) = v := by
  obtain ⟨hlow, hhigh⟩ := (valueValid_iff v).1 hvalue
  exact (toNat_wrap v).trans (Int.emod_eq_of_lt hlow hhigh)

/-- R60: a valid address names a cell. -/
theorem toNat_lt_memWords_of_addressValid {addr : Int} (haddr : addressValid addr = true) :
    addr.toNat < Config.memWords := by
  have hrange := (addressValid_iff addr).1 haddr
  omega

/-- Settles O33: the two refused writes in the order of the checks, and the done write as a write of
one cell. -/
theorem memoryWriteChangesOneCell : Obligations.MemoryWriteChangesOneCell := by
  intro m addr v
  rw [← addressValid_iff_le_lastCell, ← valueValid_iff_le_lastValue]
  refine ⟨memWrite_of_invalid_address m v, memWrite_of_invalid_value m, fun haddr hvalue =>
    ⟨_, memWrite_of_valid m haddr hvalue, ?_, fun k => Memory.read_write_other m _ k _,
      fun hwf => Memory.write_keeps_wf _ hwf (toNat_lt_memWords_of_addressValid haddr)⟩⟩
  rw [Memory.read_write_same]
  exact toNat_ofInt_of_valueValid hvalue

theorem Memory.read_cons_same (k : Nat) (v : Word) (m : Memory) :
    Memory.read ((k, v) :: m) k = v := if_pos rfl

theorem Memory.read_cons_other {j k : Nat} (v : Word) (m : Memory) (hne : j ≠ k) :
    Memory.read ((k, v) :: m) j = m.read j := if_neg hne

/-- R60: a canonical list starts at the least address that does not read as 0. -/
theorem Memory.head_le_of_reads_alike {lo k k' : Nat} {v v' : Word} {m m' : Memory}
    (hm : Memory.wfFrom lo ((k, v) :: m) = true)
    (hreads : ∀ j, Memory.read ((k, v) :: m) j = Memory.read ((k', v') :: m') j)
    (hm' : Memory.wfFrom k' ((k', v') :: m') = true) : k' ≤ k := by
  obtain ⟨-, -, hv, -⟩ := (Memory.wfFrom_cons ..).1 hm
  by_contra hlt
  have hread := hreads k
  rw [Memory.read_cons_same, Memory.read_below hm' (Nat.lt_of_not_le hlt)] at hread
  exact hv hread

/-- A canonical list is canonical from its own first address on. -/
theorem Memory.wfFrom_head {lo k : Nat} {v : Word} {m : Memory}
    (hm : Memory.wfFrom lo ((k, v) :: m) = true) : Memory.wfFrom k ((k, v) :: m) = true := by
  obtain ⟨-, hrest⟩ := (Memory.wfFrom_cons ..).1 hm
  exact (Memory.wfFrom_cons ..).2 ⟨le_rfl, hrest⟩

/-- A list that is canonical and not empty has a cell that does not read as 0. -/
theorem Memory.not_reads_zero_of_cons {lo k : Nat} {v : Word} {m : Memory}
    (hm : Memory.wfFrom lo ((k, v) :: m) = true) : ¬ ∀ j, Memory.read ((k, v) :: m) j = 0#16 := by
  obtain ⟨-, -, hv, -⟩ := (Memory.wfFrom_cons ..).1 hm
  exact fun hzero => hv ((Memory.read_cons_same k v m).symm.trans (hzero k))

/-- R60: two canonical lists that read alike start with the same cell, and their rests read alike. -/
theorem Memory.eq_of_reads_alike {lo lo' : Nat} {m m' : Memory} (hm : Memory.wfFrom lo m = true)
    (hm' : Memory.wfFrom lo' m' = true) (hreads : ∀ j, m.read j = m'.read j) : m = m' := by
  induction m generalizing lo lo' m' with
  | nil =>
    cases m' with
    | nil => rfl
    | cons cell' m' => exact absurd (fun j => (hreads j).symm) (Memory.not_reads_zero_of_cons hm')
  | cons cell m ih =>
    obtain ⟨k, v⟩ := cell
    cases m' with
    | nil => exact absurd hreads (Memory.not_reads_zero_of_cons hm)
    | cons cell' m' =>
      obtain ⟨k', v'⟩ := cell'
      obtain rfl : k = k' := le_antisymm
        (Memory.head_le_of_reads_alike hm' (fun j => (hreads j).symm) (Memory.wfFrom_head hm))
        (Memory.head_le_of_reads_alike hm hreads (Memory.wfFrom_head hm'))
      obtain ⟨-, -, -, hrest⟩ := (Memory.wfFrom_cons ..).1 hm
      obtain ⟨-, -, -, hrest'⟩ := (Memory.wfFrom_cons ..).1 hm'
      obtain rfl : v = v' := by
        rw [← Memory.read_cons_same k v m, hreads k, Memory.read_cons_same]
      rw [ih hrest hrest' fun j => ?_]
      by_cases hj : j = k
      · rw [hj, Memory.read_below hrest k.lt_succ_self, Memory.read_below hrest' k.lt_succ_self]
      · simpa only [Memory.read_cons_other v _ hj] using hreads j

/-- Settles O34: by induction on the two lists. -/
theorem canonicalMemoriesReadingAlikeAreEqual :
    Obligations.CanonicalMemoriesReadingAlikeAreEqual :=
  fun _ _ => Memory.eq_of_reads_alike

end Sys2Proof.Machine
end

section
/-! One step (10_state.md R30): its equations by the fetch and the verdict, what a next state can
be, and the statements about faults, stores, the hold and the pointer pair (60_exceptions.md R221,
R223, R228). -/

namespace Sys2Proof.Machine

/-- The state that fault entry leaves (R228). -/
def faultState (f : Fault) (s : State) : State :=
  { advance s with fault := some f, runState := .faulted }

theorem takeFault_eq_next (f : Fault) (s : State) : takeFault f s = .next (faultState f s) := rfl

@[simp] theorem faultState_fault (f : Fault) (s : State) : (faultState f s).fault = some f := rfl

theorem step_of_fetch_ok {s : State} {w : Word} (hrun : s.runState = .running)
    (hfetch : fetch s = .ok w) : step s = execWord w s := by
  simp [step, hrun, hfetch]

theorem step_of_fetch_error {s : State} {f : Fault} (hrun : s.runState = .running)
    (hfetch : fetch s = .error f) : step s = .next (faultState f s) := by
  simp [step, hrun, hfetch, takeFault_eq_next]

/-- R30 steps 3 to 5 for an instruction's word. -/
theorem step_of_decode_legal {s : State} {i : Instr} (hrun : s.runState = .running)
    (hinside : s.next.toNat < Config.memWords)
    (hlegal : decode (s.mem.read s.next.toNat) = .legal i) : step s = exec i s := by
  rw [step_of_fetch_ok hrun (fetch_inside hinside), execWord_of_legal hlegal]

/-- R30 steps 3 and 4 for an illegal word. -/
theorem step_of_decode_illegal {s : State} {w : Word} (hrun : s.runState = .running)
    (hinside : s.next.toNat < Config.memWords) (hword : s.mem.read s.next.toNat = w)
    (hillegal : decode w = .illegal w) :
    step s = .next (faultState (.invalidInstruction w) s) := by
  rw [step_of_fetch_ok hrun (fetch_inside hinside), hword, execWord_of_illegal hillegal,
    takeFault_eq_next]

theorem step_of_next_outside {s : State} (hrun : s.runState = .running)
    (houtside : ¬ s.next.toNat < Config.memWords) :
    step s = .next (faultState (.addressRange (addressOf s.next)) s) :=
  step_of_fetch_error hrun (fetch_outside houtside)

/-- Settles O35: the equation of a step at an instruction's word. -/
theorem stepRunsTheDecodedInstruction : Obligations.StepRunsTheDecodedInstruction :=
  fun _ _ => step_of_decode_legal

/-- Settles O37: the words of the listed ranges are illegal. -/
theorem illegalWordFaultsWithNoOtherEffect : Obligations.IllegalWordFaultsWithNoOtherEffect :=
  fun _ w hrun hinside hword hrange =>
    step_of_decode_illegal hrun hinside hword ((decode_eq_illegal_iff_ranges w).2 hrange)

/-- Settles O38: the pointer 4096 names no cell. -/
theorem fetchPastTheLastCellFaults : Obligations.FetchPastTheLastCellFaults := by
  intro s hrun hnext
  rw [step_of_next_outside hrun (by rw [hnext]; decide), faultState, advance, hnext]
  rfl

/-- What the next state of a step can be: the fault of the fetch, the fault of an illegal word, or
what the decoded instruction leaves. -/
theorem step_next_cases {s t : State} (hstep : step s = .next t) :
    (¬ s.next.toNat < Config.memWords ∧ t = faultState (.addressRange (addressOf s.next)) s) ∨
      (∃ w, s.next.toNat < Config.memWords ∧ s.mem.read s.next.toNat = w ∧
        decode w = .illegal w ∧ t = faultState (.invalidInstruction w) s) ∨
      ∃ i, s.next.toNat < Config.memWords ∧ decode (s.mem.read s.next.toNat) = .legal i ∧
        exec i s = .next t := by
  have hrun := running_of_step_next hstep
  by_cases hinside : s.next.toNat < Config.memWords
  · obtain ⟨i, hlegal⟩ | hillegal := decode_legal_or_illegal (s.mem.read s.next.toNat)
    · exact .inr (.inr ⟨i, hinside, hlegal, step_of_decode_legal hrun hinside hlegal ▸ hstep⟩)
    · exact .inr (.inl ⟨_, hinside, rfl, hillegal, Host.Outcome.next.inj
        (hstep.symm.trans (step_of_decode_illegal hrun hinside rfl hillegal))⟩)
  · exact .inl ⟨hinside, Host.Outcome.next.inj
      (hstep.symm.trans (step_of_next_outside hrun hinside))⟩

/-- R30: a running core takes a step. -/
theorem exists_step_of_running {s : State} (hrun : s.runState = .running) :
    ∃ t, step s = .next t := by
  obtain ⟨-, hstep⟩ | ⟨w, -, -, hstep⟩ | ⟨i, -, -, hstep⟩ := step_running_cases hrun
  · exact ⟨_, hstep⟩
  · exact ⟨_, hstep⟩
  · obtain ⟨t, hexec, -⟩ := exec_next_mem i s
    exact ⟨t, hstep.trans hexec⟩

/-- R35: elsewhere the step is refused. -/
theorem step_of_not_running {s : State} (hstop : s.runState ≠ .running) :
    step s = .refused .stepNotRunning := by
  cases hs : s.runState with
  | running => exact absurd hs hstop
  | halted | faulted => simp [step, hs]

/-- Settles O36: the domain of the step. -/
theorem stepAnswersNextExactlyWhenRunning : Obligations.StepAnswersNextExactlyWhenRunning :=
  fun _ => ⟨⟨exists_step_of_running, fun ⟨_, hstep⟩ => running_of_step_next hstep⟩,
    step_of_not_running⟩

/-- R27: an instruction does not enter Faulted. -/
theorem exec_runState_ne_faulted {i : Instr} {s t : State} (hrun : s.runState = .running)
    (hexec : exec i s = .next t) : t.runState ≠ .faulted := by
  obtain ⟨d, rfl⟩ | ⟨u, hu, hkeep⟩ := exec_keeps_runState_or_hlt i s
  · obtain rfl := Host.Outcome.next.inj ((exec_hlt_eq d s).symm.trans hexec)
    exact fun hfaulted => nomatch hfaulted
  · obtain rfl : u = t := Host.Outcome.next.inj (hu.symm.trans hexec)
    rw [hkeep, hrun]
    decide

/-- Settles O39: a step enters Faulted by fault entry only. -/
theorem faultingStepChangesNoData : Obligations.FaultingStepChangesNoData := by
  intro s t hstep hfaulted
  obtain ⟨-, rfl⟩ | ⟨w, -, -, -, rfl⟩ | ⟨i, -, -, hexec⟩ := step_next_cases hstep
  · exact ⟨rfl, _, rfl⟩
  · exact ⟨rfl, _, rfl⟩
  · exact absurd hfaulted (exec_runState_ne_faulted (running_of_step_next hstep) hexec)

/-- Settles O29: fault entry keeps memory, and so does every instruction but STA, which writes one
cell. -/
theorem stepChangesOnlyTheStoredCell : Obligations.StepChangesOnlyTheStoredCell := by
  intro s t k hstep hchange
  obtain ⟨-, rfl⟩ | ⟨w, -, -, -, rfl⟩ | ⟨i, hinside, hlegal, hexec⟩ := step_next_cases hstep
  · exact absurd rfl hchange
  · exact absurd rfl hchange
  obtain ⟨u, hu, hmem⟩ := exec_next_mem i s
  obtain rfl : u = t := Host.Outcome.next.inj (hu.symm.trans hexec)
  obtain hsame | ⟨addr, rfl, hwrite⟩ := hmem
  · exact absurd (by rw [hsame]) hchange
  · rw [hwrite] at hchange ⊢
    obtain rfl : k = addr.toNat := by
      by_contra hother
      exact hchange (Memory.read_write_other _ _ _ _ hother)
    exact ⟨addr, hinside, hlegal, rfl, Memory.read_write_same _ _ _⟩

/-- R94: a pointer that is not the address of a data field is another number. -/
theorem toNat_ne_of_ne_zext13 {p : Pointer} {addr : DataField} (hne : p ≠ zext13 addr) :
    p.toNat ≠ addr.toNat := by
  rw [← toNat_zext13 addr]
  exact fun hnum => hne (BitVec.eq_of_toNat_eq hnum)

/-- R68: a fetch answers the word written to its cell. -/
theorem fetch_of_write_same {s : State} {m : Memory} {addr : DataField} {x : Word}
    (hmem : s.mem = m.write addr.toNat x) (hnext : s.next = zext13 addr) : fetch s = .ok x := by
  have hnum : s.next.toNat = addr.toNat := by rw [hnext, toNat_zext13]
  rw [fetch_inside (hnum ▸ addr.isLt), hmem, hnum, Memory.read_write_same]

/-- R68: a fetch of another cell answers what it did before the write. -/
theorem fetch_of_write_other {s u : State} {addr : DataField} {x : Word}
    (hmem : u.mem = s.mem.write addr.toNat x) (hnext : u.next = s.next)
    (hne : s.next ≠ zext13 addr) : fetch u = fetch s := by
  by_cases hinside : s.next.toNat < Config.memWords
  · rw [fetch_inside hinside, fetch_inside (hnext ▸ hinside), hmem, hnext,
      Memory.read_write_other _ _ _ _ (toNat_ne_of_ne_zext13 hne)]
  · rw [fetch_outside hinside, fetch_outside (hnext ▸ hinside), hnext]

/-- Settles O31: a step at a STA writes one cell, and a fetch reads one cell. -/
theorem storedWordIsWhatTheNextFetchReturns :
    Obligations.StoredWordIsWhatTheNextFetchReturns := by
  intro s t addr hrun hinside hlegal hstep p
  have hexec : exec (.sta addr) s = .next t :=
    (step_of_decode_legal hrun hinside hlegal).symm.trans hstep
  have hmem : t.mem = s.mem.write addr.toNat s.a := by
    obtain rfl := Host.Outcome.next.inj ((exec_sta_eq addr s).symm.trans hexec)
    rfl
  exact ⟨fetch_of_write_same (s := { t with next := p }) hmem,
    fetch_of_write_other (s := { s with next := p }) (u := { t with next := p }) hmem rfl⟩

/-- R38: a core holds exactly when it is about to run an INP whose input is missing. -/
theorem holding_iff {s : State} :
    s.holding = true ↔ s.runState = .running ∧ s.input = [] ∧
      ∃ w, fetch s = .ok w ∧ decode w = .legal .inp := by
  cases hfetch : fetch s <;> simp [State.holding, hfetch, and_assoc]

/-- R38: a step of a core that holds changes nothing. -/
theorem step_of_holding {s : State} (hhold : s.holding = true) : step s = .next s := by
  obtain ⟨hrun, hempty, w, hfetch, hlegal⟩ := holding_iff.1 hhold
  rw [step_of_fetch_ok hrun hfetch, execWord_of_legal hlegal, exec_inp_of_nil hempty]

/-- R33, R38: a supplied integer is the whole source of a core that held. -/
theorem step_supplyInput_of_inp {s : State} (hrun : s.runState = .running)
    (hinside : s.next.toNat < Config.memWords)
    (hlegal : decode (s.mem.read s.next.toNat) = .legal .inp) (hempty : s.input = []) (v : Int) :
    step (supplyInput v s) = .next { advance s with a := wrap v } := by
  have hsource : (supplyInput v s).input = v :: [] := by simp [supplyInput, hempty]
  have hstep : step (supplyInput v s) = exec .inp (supplyInput v s) :=
    step_of_decode_legal hrun hinside hlegal
  rw [hstep, exec_inp_of_cons hsource, ← hempty]
  rfl

/-- Settles O22: the hold, and the step after a supply. -/
theorem inputHoldsUntilSupplied : Obligations.InputHoldsUntilSupplied := by
  intro s hrun hinside hlegal hempty
  have hhold : s.holding = true :=
    holding_iff.2 ⟨hrun, hempty, _, fetch_inside hinside, hlegal⟩
  refine ⟨hhold, step_of_holding hhold, fun v => ?_⟩
  rw [← wrap_eq_ofNat]
  exact step_supplyInput_of_inp hrun hinside hlegal hempty v

/-- R38: a core that does not hold has the input its instruction takes. -/
theorem not_inputMissing_of_not_holding {s : State} {w : Word} {i : Instr}
    (hrun : s.runState = .running) (hgo : s.holding = false) (hfetch : fetch s = .ok w)
    (hlegal : decode w = .legal i) : ¬ inputMissing i s := by
  rintro ⟨rfl, hempty⟩
  exact absurd (holding_iff.2 ⟨hrun, hempty, w, hfetch, hlegal⟩) (Bool.eq_false_iff.1 hgo)

/-- R208: the pointer that BRZ latches. -/
theorem latch_brz_next (addr : DataField) (s : State) :
    (latch (controlOf (.legal (.brz addr))) s).next =
      if s.a = 0#16 then addr.setWidth 13 else s.next + 1#13 := by
  simp [latch, controlOf, nextPointer, aluTest, zext13]

/-- Settles O30: a fault advances the pointers, and the redirect logic forms what an instruction
leaves in `next`. -/
theorem redirectLogicFormsNext : Obligations.RedirectLogicFormsNext := by
  intro s hrun
  obtain ⟨t, hstep⟩ := exists_step_of_running hrun
  refine ⟨t, hstep, fun hhold =>
    Host.Outcome.next.inj (hstep.symm.trans (step_of_holding hhold)), fun hgo => ?_⟩
  cases hfetch : fetch s with
  | error f =>
    obtain rfl := Host.Outcome.next.inj ((step_of_fetch_error hrun hfetch).symm.trans hstep)
    exact ⟨rfl, fun _ _ => rfl, by rintro _ ⟨⟩⟩
  | ok w =>
    have hexecWord : execWord w s = .next t := (step_of_fetch_ok hrun hfetch).symm.trans hstep
    obtain ⟨i, hlegal⟩ | hillegal := decode_legal_or_illegal w
    · have hready := not_inputMissing_of_not_holding hrun hgo hfetch hlegal
      obtain rfl := Host.Outcome.next.inj
        ((exec_eq_latch hready).symm.trans ((execWord_of_legal hlegal s).symm.trans hexecWord))
      refine ⟨rfl, by rintro _ ⟨⟩, ?_⟩
      rintro _ ⟨⟩
      rw [hlegal]
      cases i
      case brz addr => exact latch_brz_next addr s
      all_goals rfl
    · obtain rfl := Host.Outcome.next.inj ((execWord_of_illegal hillegal s).symm.trans hexecWord)
      refine ⟨rfl, by rintro _ ⟨⟩, ?_⟩
      rintro _ ⟨⟩
      rw [hillegal]
      rfl

end Sys2Proof.Machine
end

section
/-! The invariant (10_state.md R26 to R28, 60_exceptions.md R228): after Reset, after every step, and
after every action of the host. -/

namespace Sys2Proof.Machine

open Sys2Proof.Safety

theorem soundState_of_not_faulted {s : State} (hwf : s.mem.wf = true)
    (hrun : s.runState ≠ .faulted) (hfault : s.fault = none) (hcurrent : s.current.toNat ≤ 4095)
    (hnext : s.next.toNat ≤ 4096) : SoundState s :=
  ⟨hwf, fun _ => ⟨hfault, hcurrent, hnext⟩, fun hfaulted => absurd hfaulted hrun⟩

/-- What the invariant says of a running core. -/
theorem soundState_running {s : State} (hsound : SoundState s) (hrun : s.runState = .running) :
    s.fault = none ∧ s.current.toNat ≤ 4095 ∧ s.next.toNat ≤ 4096 :=
  hsound.sound (by rw [hrun]; decide)

/-- R26: below the end of memory the 13-bit increment does not wrap. -/
theorem toNat_next_add_one {p : Pointer} (hbound : p.toNat ≤ 4096) :
    (p + 1#13).toNat = p.toNat + 1 := by
  rw [BitVec.toNat_add, BitVec.toNat_ofNat]
  omega

/-- R66: a sound core's fetch can fail at the end of memory only. -/
theorem toNat_next_eq_of_outside {s : State} (hsound : SoundState s)
    (hrun : s.runState = .running) (houtside : ¬ s.next.toNat < Config.memWords) :
    s.next.toNat = 4096 := by
  obtain ⟨-, -, hnext⟩ := soundState_running hsound hrun
  exact Nat.le_antisymm hnext (Nat.le_of_not_lt houtside)

/-- R221, R228: the fault of the fetch keeps the invariant. -/
theorem soundState_of_fetch_fault {s : State} (hsound : SoundState s)
    (hrun : s.runState = .running) (houtside : ¬ s.next.toNat < Config.memWords) :
    SoundState (faultState (.addressRange (addressOf s.next)) s) := by
  have hend := toNat_next_eq_of_outside hsound hrun houtside
  refine ⟨hsound.memory, fun hother => absurd rfl hother, fun _ =>
    ⟨toNat_next_add_one hend.le, .inl ⟨?_, hend⟩⟩⟩
  rw [faultState_fault, addressOf, hend]
  rfl

/-- R223, R228: the fault of an illegal word keeps the invariant. -/
theorem soundState_of_illegal_fault {s : State} {w : Word} (hsound : SoundState s)
    (hinside : s.next.toNat < Config.memWords) (hword : s.mem.read s.next.toNat = w)
    (hillegal : decode w = .illegal w) : SoundState (faultState (.invalidInstruction w) s) :=
  ⟨hsound.memory, fun hother => absurd rfl hother, fun _ =>
    ⟨toNat_next_add_one hinside.le, .inr ⟨w, rfl, hinside, hword, hillegal⟩⟩⟩

/-- R26, R94: the redirect logic forms `current + 1` or a 12-bit address. -/
theorem toNat_nextPointer_le {s : State} (hinside : s.next.toNat < Config.memWords) (test : Bool)
    (c : RedirectControl) : (nextPointer s test c).toNat ≤ 4096 := by
  have hstep : (s.next + 1#13).toNat ≤ 4096 := by
    rw [toNat_next_add_one hinside.le]
    exact hinside
  have htarget (addr : DataField) : (zext13 addr).toNat ≤ 4096 := by
    rw [toNat_zext13]
    exact addr.isLt.le
  cases c with
  | keep => exact hstep
  | always addr => exact htarget addr
  | ifTest addr =>
    cases test
    · exact hstep
    · exact htarget addr

/-- R60: an instruction keeps memory canonical. -/
theorem exec_keeps_wf {i : Instr} {s t : State} (hwf : s.mem.wf = true)
    (hexec : exec i s = .next t) : t.mem.wf = true := by
  obtain ⟨u, hu, hmem⟩ := exec_next_mem i s
  obtain rfl : u = t := Host.Outcome.next.inj (hu.symm.trans hexec)
  obtain hsame | ⟨addr, -, hwrite⟩ := hmem
  · rwa [hsame]
  · rw [hwrite]
    exact Memory.write_keeps_wf _ hwf addr.isLt

/-- R26 to R28: an instruction fetched from memory keeps the invariant. -/
theorem exec_keeps_soundState {i : Instr} {s t : State} (hsound : SoundState s)
    (hrun : s.runState = .running) (hinside : s.next.toNat < Config.memWords)
    (hexec : exec i s = .next t) : SoundState t := by
  have hwf := exec_keeps_wf hsound.memory hexec
  have hne := exec_runState_ne_faulted hrun hexec
  obtain ⟨hfault, -, -⟩ := soundState_running hsound hrun
  obtain ⟨-, rfl⟩ | ⟨-, rfl⟩ := exec_next_cases hexec
  · exact hsound
  · exact soundState_of_not_faulted hwf hne hfault (Nat.le_of_lt_succ hinside)
      (toNat_nextPointer_le hinside _ _)

/-- Settles O42: each of the three ends of a step keeps the invariant. -/
theorem everyStepKeepsTheInvariant : Obligations.EveryStepKeepsTheInvariant := by
  intro s t hsound hstep
  have hrun := running_of_step_next hstep
  obtain ⟨houtside, rfl⟩ | ⟨w, hinside, hword, hillegal, rfl⟩ | ⟨i, hinside, -, hexec⟩ :=
    step_next_cases hstep
  · exact soundState_of_fetch_fault hsound hrun houtside
  · exact soundState_of_illegal_fault hsound hinside hword hillegal
  · exact exec_keeps_soundState hsound hrun hinside hexec

/-- R28: no instruction writes the fault record. -/
theorem exec_keeps_fault {i : Instr} {s t : State} (hexec : exec i s = .next t) :
    t.fault = s.fault := by
  obtain ⟨-, rfl⟩ | ⟨-, rfl⟩ := exec_next_cases hexec <;> rfl

/-- Settles O40: the fetch of a sound core fails at 4096 only, an illegal word records no memory
fault, and an instruction none at all. -/
theorem onlyReachableMemoryFaultIsTheFetch : Obligations.OnlyReachableMemoryFaultIsTheFetch := by
  intro s t hsound hstep
  have hrun := running_of_step_next hstep
  obtain ⟨houtside, rfl⟩ | ⟨w, -, -, -, rfl⟩ | ⟨i, -, -, hexec⟩ := step_next_cases hstep
  · have hend := toNat_next_eq_of_outside hsound hrun houtside
    refine ⟨?_, by rintro x v ⟨⟩⟩
    rintro _ ⟨⟩
    exact ⟨congrArg Nat.cast hend, BitVec.eq_of_toNat_eq hend⟩
  · exact ⟨by rintro x ⟨⟩, by rintro x v ⟨⟩⟩
  · obtain ⟨hfault, -, -⟩ := soundState_running hsound hrun
    rw [exec_keeps_fault hexec, hfault]
    exact ⟨by rintro x ⟨⟩, by rintro x v ⟨⟩⟩

/-- R40: Reset leaves an empty memory, Halted, no fault and both pointers at 0. -/
theorem soundState_resetWith (ra rb rc : Word) : SoundState (State.resetWith ra rb rc) :=
  soundState_of_not_faulted rfl (by rw [resetWith_runState]; decide) rfl (Nat.zero_le _)
    (Nat.zero_le _)

/-- Settles O41: for any three words, those of `State.reset` among them. -/
theorem resetMeetsTheInvariant : Obligations.ResetMeetsTheInvariant :=
  ⟨soundState_resetWith, soundState_resetWith _ _ _⟩

/-- R33: the invariant does not speak of the input source. -/
theorem soundState_of_input {s : State} (hsound : SoundState s) (input : List Int) :
    SoundState { s with input := input } :=
  ⟨hsound.memory, hsound.sound, hsound.faulted⟩

/-- R261: a Load copies a program that fits into memory. -/
theorem doLoad_keeps_soundState (program : List Word) {s : State} (hsound : SoundState s) :
    SoundState (doLoad program s).1 := by
  obtain hsame | ⟨hhalt, hfits, hcopy⟩ := doLoad_cases program s
  · rwa [hsame]
  · have hne : s.runState ≠ .faulted := by rw [hhalt]; decide
    obtain ⟨hfault, hcurrent, hnext⟩ := hsound.sound hne
    have hbase : Config.loadBase + program.length ≤ Config.memWords := by
      rwa [Config.loadBase, Nat.zero_add]
    rw [hcopy]
    exact soundState_of_not_faulted (Memory.writeFrom_keeps_wf hsound.memory hbase) hne hfault
      hcurrent hnext

/-- R262: a Run starts at the entry, with no fault recorded. -/
theorem doRun_keeps_soundState {s : State} (hsound : SoundState s) : SoundState (doRun s).1 := by
  obtain hsame | ⟨hhalt, hstart⟩ := doRun_cases s
  · rwa [hsame]
  · obtain ⟨hfault, -, -⟩ := hsound.sound (by rw [hhalt]; decide)
    rw [hstart]
    exact soundState_of_not_faulted hsound.memory (by simp) hfault (Nat.zero_le _) (Nat.zero_le _)

theorem doStep_keeps_soundState {s : State} (hsound : SoundState s) : SoundState (doStep s).1 := by
  obtain hsame | ⟨t, hstep, hnext⟩ := doStep_cases s
  · rwa [hsame]
  · rw [hnext]
    exact everyStepKeepsTheInvariant s t hsound hstep

/-- Settles O55: action by action. -/
theorem everyHostActionKeepsTheInvariant : Obligations.EveryHostActionKeepsTheInvariant := by
  intro x s hsound
  cases x with
  | reset ra rb rc => exact soundState_of_input (soundState_resetWith ra rb rc) s.input
  | load program => exact doLoad_keeps_soundState program hsound
  | run => exact doRun_keeps_soundState hsound
  | step => exact doStep_keeps_soundState hsound
  | supply v => exact soundState_of_input hsound (s.input ++ [v])

/-- What every action of a sequence keeps, the sequence keeps. -/
theorem actAll_keeps {P : State → Prop} {xs : List HostAction}
    (hact : ∀ x ∈ xs, ∀ s, P s → P (act x s).1) {s : State} (hstart : P s) : P (actAll xs s) := by
  induction xs generalizing s with
  | nil => exact hstart
  | cons x xs ih =>
    obtain ⟨hhead, htail⟩ := List.forall_mem_cons.1 hact
    rw [actAll_cons]
    exact ih htail (hhead s hstart)

/-- Settles O43: Reset meets the invariant and every action keeps it. -/
theorem everyReachableStateMeetsTheInvariant :
    Obligations.EveryReachableStateMeetsTheInvariant := by
  rintro s ⟨ra, rb, rc, xs, rfl⟩
  exact actAll_keeps (fun x _ => everyHostActionKeepsTheInvariant x)
    (soundState_resetWith ra rb rc)

end Sys2Proof.Machine
end

section
/-! The host's transactions and runs (10_state.md R33 to R40, 70_reset_and_hazards.md R260 to
R265). -/

namespace Sys2Proof.Machine

/-- Settles O45: field by field. -/
theorem resetSetsEveryPieceOfState : Obligations.ResetSetsEveryPieceOfState :=
  fun ra rb rc _ => ⟨⟨rfl, rfl, rfl⟩, rfl, rfl, rfl, rfl, read_resetWith ra rb rc, rfl, rfl⟩

/-- R261: a program that is too long is reported and not copied. -/
theorem doLoad_of_too_long {program : List Word} {s : State} (hhalt : s.runState = .halted)
    (hlong : ¬ program.length ≤ Config.memWords) :
    doLoad program s = (s, .capacity program.length) := by
  simp [doLoad, hhalt, programFits, hlong]

/-- R261: a program that fits is copied. -/
theorem doLoad_of_fits {program : List Word} {s : State} (hhalt : s.runState = .halted)
    (hfits : program.length ≤ Config.memWords) :
    doLoad program s =
      ({ s with mem := s.mem.writeFrom Config.loadBase program }, .accepted) := by
  simp [doLoad, hhalt, programFits, hfits]

/-- R261: a cell that the program covers holds the program's word. -/
theorem read_loaded_inside (m : Memory) (program : List Word) {k : Nat}
    (hk : k < program.length) : (m.writeFrom Config.loadBase program).read k = program[k] := by
  rw [Memory.read_writeFrom, if_pos (by simp [Config.loadBase, hk])]
  exact List.getD_eq_getElem program 0#16 hk

/-- R261, D12: a cell beyond the program keeps its word. -/
theorem read_loaded_outside (m : Memory) (program : List Word) {k : Nat}
    (hk : program.length ≤ k) : (m.writeFrom Config.loadBase program).read k = m.read k := by
  rw [Memory.read_writeFrom, if_neg (by simp [Config.loadBase, hk])]

/-- Settles O46: the two cases of the length, and the cells after the copy. -/
theorem loadCopiesTheProgramOrReportsCapacity :
    Obligations.LoadCopiesTheProgramOrReportsCapacity :=
  fun program s hhalt => ⟨fun hlong => doLoad_of_too_long hhalt (Nat.not_le_of_gt hlong),
    fun hfits => ⟨_, doLoad_of_fits hhalt hfits, fun _ => read_loaded_inside s.mem program,
      fun _ => read_loaded_outside s.mem program⟩⟩

/-- Settles O47: the entry is address 0. -/
theorem runStartsAtAddressZero : Obligations.RunStartsAtAddressZero :=
  fun _ => doRun_of_halted

theorem doLoad_of_not_halted (program : List Word) {s : State} (hbusy : s.runState ≠ .halted) :
    doLoad program s = (s, .refused) := by
  cases hs : s.runState with
  | halted => exact absurd hs hbusy
  | running | faulted => simp [doLoad, hs]

theorem doRun_of_not_halted {s : State} (hbusy : s.runState ≠ .halted) :
    doRun s = (s, .refused) := by
  cases hs : s.runState with
  | halted => exact absurd hs hbusy
  | running | faulted => simp [doRun, hs]

theorem doStep_of_not_running {s : State} (hstop : s.runState ≠ .running) :
    doStep s = (s, .refused) := by
  rw [doStep, step_of_not_running hstop]

/-- Settles O48: each transaction outside its run state. -/
theorem transactionsOutsideTheirPreconditionAreRefused :
    Obligations.TransactionsOutsideTheirPreconditionAreRefused :=
  fun program _ => ⟨fun hbusy => ⟨doLoad_of_not_halted program hbusy, doRun_of_not_halted hbusy⟩,
    doStep_of_not_running⟩

/-- R199: an instruction appends to the output trace or leaves it. -/
theorem exec_output_prefix {i : Instr} {s t : State} (hexec : exec i s = .next t) :
    s.output <+: t.output := by
  obtain ⟨-, rfl⟩ | ⟨-, rfl⟩ := exec_next_cases hexec
  · exact List.prefix_rfl
  · obtain hsame | ⟨kind, -, happend⟩ := latch_output_cases (controlOf (.legal i)) s
    · rw [hsame]
    · rw [happend]
      exact List.prefix_append _ _

/-- R199: so does a step. -/
theorem step_output_prefix {s t : State} (hstep : step s = .next t) : s.output <+: t.output := by
  obtain ⟨-, rfl⟩ | ⟨w, -, -, -, rfl⟩ | ⟨i, -, -, hexec⟩ := step_next_cases hstep
  · exact List.prefix_rfl
  · exact List.prefix_rfl
  · exact exec_output_prefix hexec

/-- R199: of the host's actions only a Reset takes events away. -/
theorem act_output_prefix {x : HostAction} (hx : ∀ ra rb rc, x ≠ .reset ra rb rc) (s : State) :
    s.output <+: (act x s).1.output := by
  cases x with
  | reset ra rb rc => exact absurd rfl (hx ra rb rc)
  | load program =>
    obtain hsame | ⟨-, -, hcopy⟩ := doLoad_cases program s
    · rw [act, hsame]
    · rw [act, hcopy]
  | run =>
    obtain hsame | ⟨-, hstart⟩ := doRun_cases s
    · rw [act, hsame]
    · rw [act, hstart]
  | step =>
    obtain hsame | ⟨t, hstep, hnext⟩ := doStep_cases s
    · rw [act, hsame]
    · rw [act, hnext]
      exact step_output_prefix hstep
  | supply v => exact List.prefix_rfl

/-- An action of a sequence without a Reset is no Reset. -/
theorem ne_reset_of_mem {x : HostAction} {xs : List HostAction}
    (hfree : ∀ ra rb rc, HostAction.reset ra rb rc ∉ xs) (hx : x ∈ xs) (ra rb rc : Word) :
    x ≠ .reset ra rb rc := by
  rintro rfl
  exact hfree ra rb rc hx

/-- Settles O50: every action but a Reset keeps the events of the trace and their order. -/
theorem outputTraceOnlyGrows : Obligations.OutputTraceOnlyGrows := by
  intro xs s hfree
  have hprefix : s.output <+: (actAll xs s).output :=
    actAll_keeps (P := fun t => s.output <+: t.output)
      (fun x hx t hkeep => hkeep.trans (act_output_prefix (ne_reset_of_mem hfree hx) t))
      List.prefix_rfl
  obtain ⟨es, happend⟩ := hprefix
  exact ⟨es, happend.symm⟩

/-- R35, D8: in Faulted an action other than a Reset changes the input source at most. -/
theorem act_of_faulted {x : HostAction} (hx : ∀ ra rb rc, x ≠ .reset ra rb rc) {s : State}
    (hfaulted : s.runState = .faulted) :
    ∃ vs, (act x s).1 = { s with input := s.input ++ vs } := by
  have hsame : s = { s with input := s.input ++ [] } := by rw [List.append_nil]
  cases x with
  | reset ra rb rc => exact absurd rfl (hx ra rb rc)
  | load program =>
    exact ⟨[], by rwa [act, doLoad_of_not_halted program (by rw [hfaulted]; decide)]⟩
  | run => exact ⟨[], by rwa [act, doRun_of_not_halted (by rw [hfaulted]; decide)]⟩
  | step => exact ⟨[], by rwa [act, doStep_of_not_running (by rw [hfaulted]; decide)]⟩
  | supply v => exact ⟨[v], rfl⟩

/-- R231: in Faulted a sequence of actions without a Reset changes the input source at most. -/
theorem actAll_of_faulted {xs : List HostAction}
    (hfree : ∀ ra rb rc, HostAction.reset ra rb rc ∉ xs) {s : State}
    (hfaulted : s.runState = .faulted) :
    ∃ vs, actAll xs s = { s with input := s.input ++ vs } := by
  refine actAll_keeps (P := fun t => ∃ vs, t = { s with input := s.input ++ vs }) ?_
    ⟨[], by rw [List.append_nil]⟩
  rintro x hx _ ⟨vs, rfl⟩
  obtain ⟨ws, hact⟩ :=
    act_of_faulted (ne_reset_of_mem hfree hx) (s := { s with input := s.input ++ vs }) hfaulted
  exact ⟨vs ++ ws, by rw [hact, List.append_assoc]⟩

/-- Settles O56: what a sequence of actions can change in Faulted, and the Reset. -/
theorem faultedIsLeftOnlyByReset : Obligations.FaultedIsLeftOnlyByReset :=
  fun _ hfaulted => ⟨fun _ hfree => actAll_of_faulted hfree hfaulted, fun _ _ _ => ⟨rfl, rfl⟩⟩

/-- R262: one step of a run and the rest. -/
theorem runSteps_succ_of_step {n : Nat} {s t : State} (hstep : step s = .next t) :
    runSteps (n + 1) s = runSteps n t := by
  rw [runSteps_succ_of_running n (running_of_step_next hstep), doStep_of_next hstep]

/-- R262: a run that has ended stays. -/
theorem runSteps_of_not_running (n : Nat) {s : State} (hstop : s.runState ≠ .running) :
    runSteps n s = s := by
  cases n with
  | zero => rfl
  | succ n =>
    cases hs : s.runState with
    | running => exact absurd hs hstop
    | halted | faulted => simp [runSteps, hs]

/-- R35: Step transactions outside Running change nothing. -/
theorem actAll_steps_of_not_running (n : Nat) {s : State} (hstop : s.runState ≠ .running) :
    actAll (List.replicate n .step) s = s := by
  induction n with
  | zero => rfl
  | succ n ih => rwa [List.replicate_succ, actAll_cons, act, doStep_of_not_running hstop]

/-- R262: a run is the Step transactions one after another. -/
theorem runSteps_eq_actAll_steps (n : Nat) (s : State) :
    runSteps n s = actAll (List.replicate n .step) s := by
  induction n generalizing s with
  | zero => rfl
  | succ n ih =>
    by_cases hrun : s.runState = .running
    · rw [runSteps_succ_of_running n hrun, List.replicate_succ, actAll_cons, act, ih]
    · rw [runSteps_of_not_running _ hrun, actAll_steps_of_not_running _ hrun]

/-- The two ways a step leaves Running: it ran HLT, or it faulted for want of a cell or of an
instruction. -/
def endsRun (s t : State) : Prop :=
  (t.runState = .halted ∧ s.next.toNat < 4096 ∧
      ∃ d, decode (s.mem.read s.next.toNat) = .legal (.hlt d)) ∨
    (t.runState = .faulted ∧ (∃ f, t.fault = some f) ∧
      (4096 ≤ s.next.toNat ∨ ∃ w, decode (s.mem.read s.next.toNat) = .illegal w))

/-- R140, R228: a step that leaves Running ends the run in one of those ways. -/
theorem endsRun_of_step_leaves_running {s t : State} (hstep : step s = .next t)
    (hstop : t.runState ≠ .running) : endsRun s t := by
  obtain ⟨houtside, rfl⟩ | ⟨w, -, rfl, hillegal, rfl⟩ | ⟨i, hinside, hlegal, hexec⟩ :=
    step_next_cases hstep
  · exact .inr ⟨rfl, ⟨_, rfl⟩, .inl (Nat.le_of_not_lt houtside)⟩
  · exact .inr ⟨rfl, ⟨_, rfl⟩, .inr ⟨_, hillegal⟩⟩
  · have hrun := running_of_step_next hstep
    have hhalt : t.runState = .halted := by
      cases ht : t.runState with
      | halted => rfl
      | running => exact absurd ht hstop
      | faulted => exact absurd ht (exec_runState_ne_faulted hrun hexec)
    obtain ⟨d, rfl⟩ := hlt_of_exec_halts hrun hexec hhalt
    exact .inl ⟨hhalt, hinside, d, hlegal⟩

/-- R262: a run that has left Running did so in one of its steps, its last. -/
theorem exists_last_step {n : Nat} {s : State} (hrun : s.runState = .running)
    (hstop : (runSteps n s).runState ≠ .running) :
    ∃ (k : Nat) (u : State), k < n ∧ u = runSteps k s ∧ u.runState = .running ∧
      step u = .next (runSteps n s) := by
  induction n generalizing s with
  | zero => exact absurd hrun hstop
  | succ n ih =>
    obtain ⟨t, hstep⟩ := exists_step_of_running hrun
    rw [runSteps_succ_of_step hstep] at hstop ⊢
    by_cases ht : t.runState = .running
    · obtain ⟨k, u, hk, rfl, hu, hlast⟩ := ih ht hstop
      exact ⟨k + 1, _, Nat.succ_lt_succ hk, (runSteps_succ_of_step hstep).symm, hu, hlast⟩
    · exact ⟨0, s, n.succ_pos, rfl, hrun, (runSteps_of_not_running n ht).symm ▸ hstep⟩

/-- Settles O51: a run step by step, as Step transactions, and its last step. -/
theorem runTakesTheMachinesSteps : Obligations.RunTakesTheMachinesSteps := by
  refine fun n s => ⟨fun t _ hstep => runSteps_succ_of_step hstep, runSteps_eq_actAll_steps n s,
    fun hrun hstop => ?_⟩
  obtain ⟨k, u, hk, hu, hurun, hlast⟩ := exists_last_step hrun hstop
  exact ⟨k, u, hk, hu, hurun, hlast, endsRun_of_step_leaves_running hlast hstop⟩

end Sys2Proof.Machine
end

section
/-! The assembler's contract (30_encoding.md R110 to R118): what the two passes answer on a line, and
what they answer on a text. -/

namespace Sys2Proof.Machine

/-- A line read as `x` has these tokens: the label, if it has one, the mnemonic, and the operand, if
it has one (R112, R114). -/
def linesUp (x : AsmLine) (tokens : List (List Char)) : Prop :=
  ∃ mnemonic operands, tokens = x.label.toList ++ mnemonic :: operands ∧
    mnemonicOf mnemonic = some x.entry ∧
    (∀ name, x.label = some name → mnemonicOf name = none) ∧
    ((operands = [] ∧ x.operand = .absent) ∨
      ∃ token, operands = [token] ∧ parseOperand token = some x.operand)

/-- R112, R114: what is read after a mnemonic is no operand or one. -/
theorem parseAfterMnemonic_ok {line : Nat} {label : Option (List Char)} {entry : MnemonicEntry}
    {operands : List (List Char)} {r : Option AsmLine}
    (hparse : parseAfterMnemonic line label entry operands = .ok r) :
    ∃ x, r = some x ∧ x.label = label ∧ x.entry = entry ∧
      ((operands = [] ∧ x.operand = .absent) ∨
        ∃ token, operands = [token] ∧ parseOperand token = some x.operand) := by
  unfold parseAfterMnemonic at hparse
  split at hparse
  · cases hparse
    exact ⟨_, rfl, rfl, rfl, .inl ⟨rfl, rfl⟩⟩
  · split at hparse
    · cases hparse
      exact ⟨_, rfl, rfl, rfl, .inr ⟨_, rfl, ‹_›⟩⟩
    · cases hparse
  · cases hparse

/-- R111, R112: a line that is read has no token and is dropped, or is kept with its tokens. -/
theorem parseLine_ok {line : Nat} {tokens : List (List Char)} {r : Option AsmLine}
    (hparse : parseLine line tokens = .ok r) :
    (tokens = [] ∧ r = none) ∨ ∃ x, r = some x ∧ linesUp x tokens := by
  unfold parseLine at hparse
  split at hparse
  · cases hparse
    exact .inl ⟨rfl, rfl⟩
  next first rest =>
    split at hparse
    next entry hfirst =>
      obtain ⟨x, hx, hlabel, rfl, hoperands⟩ := parseAfterMnemonic_ok hparse
      exact .inr ⟨x, hx, first, rest, by rw [hlabel]; rfl, hfirst,
        by simp [hlabel], hoperands⟩
    next hfirst =>
      split at hparse
      · cases hparse
      next second rest' =>
        split at hparse
        next entry hsecond =>
          obtain ⟨x, hx, hlabel, rfl, hoperands⟩ := parseAfterMnemonic_ok hparse
          refine .inr ⟨x, hx, second, rest', by rw [hlabel]; rfl, hsecond, fun name hname => ?_,
            hoperands⟩
          obtain rfl := Option.some.inj (hlabel.symm.trans hname)
          exact hfirst
        · cases hparse

/-- R115, D27: a declared label is new, and goes to the end of the table. -/
theorem declareLabel_ok {labels labels' : LabelTable} {x : AsmLine} {addr : Nat}
    (hdeclare : declareLabel labels x addr = .ok labels') :
    (x.label = none ∧ labels' = labels) ∨
      ∃ name, x.label = some name ∧ labels.lookup name = none ∧
        labels' = labels ++ [(name, addr)] := by
  unfold declareLabel at hdeclare
  split at hdeclare
  · cases hdeclare
    exact .inl ⟨‹_›, rfl⟩
  · split at hdeclare
    · cases hdeclare
    · cases hdeclare
      exact .inr ⟨_, ‹_›, ‹_›, rfl⟩

/-- R115: the first pass drops a line without tokens, or numbers the line and goes on with the next
number. -/
theorem firstPass_cons_ok {line addr : Nat} {labels table : LabelTable} {l : List Char}
    {ls : List (List Char)} {xs : List AsmLine}
    (hpass : firstPass line addr labels (l :: ls) = .ok (xs, table)) :
    (lineTokens l = [] ∧ firstPass (line + 1) addr labels ls = .ok (xs, table)) ∨
      ∃ x labels' xs', linesUp x (lineTokens l) ∧ declareLabel labels x addr = .ok labels' ∧
        firstPass (line + 1) (addr + 1) labels' ls = .ok (xs', table) ∧ xs = x :: xs' := by
  unfold firstPass at hpass
  split at hpass
  · cases hpass
  next hparse =>
    obtain ⟨hempty, -⟩ | ⟨x, hx, -⟩ := parseLine_ok hparse
    · exact .inl ⟨hempty, hpass⟩
    · cases hx
  next x hparse =>
    obtain ⟨-, hnone⟩ | ⟨y, hy, htokens⟩ := parseLine_ok hparse
    · cases hnone
    obtain rfl := Option.some.inj hy
    split at hpass
    · cases hpass
    next labels' hdeclare =>
      split at hpass
      · cases hpass
      next xs' table' hrest =>
        cases hpass
        exact .inr ⟨x, labels', xs', htokens, hdeclare, hrest, rfl⟩

/-- R111: the line has a token. -/
def isRetained (l : List Char) : Bool := !(lineTokens l).isEmpty

theorem retainedLines_eq (source : List Char) :
    retainedLines source = (splitLines source).filter isRetained := rfl

theorem isRetained_of_linesUp {x : AsmLine} {l : List Char} (htokens : linesUp x (lineTokens l)) :
    isRetained l = true := by
  obtain ⟨mnemonic, operands, hline, -⟩ := htokens
  simp [isRetained, hline]

/-- R111, R115: the lines of the first pass are the retained lines, one for one and in order. -/
theorem firstPass_lines {line addr : Nat} {labels table : LabelTable} {ls : List (List Char)}
    {xs : List AsmLine} (hpass : firstPass line addr labels ls = .ok (xs, table)) :
    List.Forall₂ (fun x l => linesUp x (lineTokens l)) xs (ls.filter isRetained) := by
  induction ls generalizing line addr labels xs with
  | nil =>
    cases hpass
    exact .nil
  | cons l ls ih =>
    obtain ⟨hempty, hrest⟩ | ⟨x, labels', xs', htokens, -, hrest, rfl⟩ := firstPass_cons_ok hpass
    · rw [List.filter_cons_of_neg (by simp [isRetained, hempty])]
      exact ih hrest
    · rw [List.filter_cons_of_pos (isRetained_of_linesUp htokens)]
      exact .cons htokens (ih hrest)

/-- R115: a name is in the table after a line exactly when it was there or the line declares it. -/
theorem lookup_declareLabel_iff {labels labels' : LabelTable} {x : AsmLine} {addr : Nat}
    (hdeclare : declareLabel labels x addr = .ok labels') (name : List Char) (k : Nat) :
    labels'.lookup name = some k ↔
      labels.lookup name = some k ∨ (x.label = some name ∧ k = addr) := by
  obtain ⟨hnone, rfl⟩ | ⟨declared, hlabel, hnew, rfl⟩ := declareLabel_ok hdeclare
  · simp [hnone]
  · by_cases hname : name = declared
    · subst hname
      simp [List.lookup_append, hnew, hlabel, eq_comm]
    · have hother : declared ≠ name := Ne.symm hname
      have hlast : List.lookup name [(declared, addr)] = none := by
        rw [List.lookup_cons, beq_false_of_ne hname]
        rfl
      simp [List.lookup_append, hlast, hlabel, hother]

/-- R115: the table after the first pass holds the names it started with and those that its lines
declare, with the numbers of the lines. -/
theorem lookup_firstPass_iff {line addr : Nat} {labels table : LabelTable}
    {ls : List (List Char)} {xs : List AsmLine}
    (hpass : firstPass line addr labels ls = .ok (xs, table)) (name : List Char) (k : Nat) :
    table.lookup name = some k ↔
      labels.lookup name = some k ∨
        ∃ j x, k = addr + j ∧ xs[j]? = some x ∧ x.label = some name := by
  induction ls generalizing line addr labels xs with
  | nil =>
    cases hpass
    simp
  | cons l ls ih =>
    obtain ⟨-, hrest⟩ | ⟨x, labels', xs', -, hdeclare, hrest, rfl⟩ := firstPass_cons_ok hpass
    · exact ih hrest
    rw [ih hrest, lookup_declareLabel_iff hdeclare, or_assoc]
    refine or_congr_right ⟨?_, ?_⟩
    · rintro (⟨hlabel, rfl⟩ | ⟨j, y, rfl, hy, hlabel⟩)
      · exact ⟨0, x, rfl, rfl, hlabel⟩
      · exact ⟨j + 1, y, by omega, hy, hlabel⟩
    · rintro ⟨j, y, rfl, hy, hlabel⟩
      cases j with
      | zero =>
        obtain rfl := Option.some.inj hy
        exact .inl ⟨hlabel, rfl⟩
      | succ j => exact .inr ⟨j, y, by omega, hy, hlabel⟩

/-- R115: from the empty table, the numbers are the positions of the lines. -/
theorem lookup_labels_iff {line : Nat} {labels : LabelTable} {ls : List (List Char)}
    {xs : List AsmLine} (hpass : firstPass line 0 [] ls = .ok (xs, labels)) (name : List Char)
    (k : Nat) : labels.lookup name = some k ↔ ∃ x, xs[k]? = some x ∧ x.label = some name := by
  rw [lookup_firstPass_iff hpass]
  simp

/-- Settles O53: the lines of the first pass against the retained lines, and its table against its
lines; two lines with one name would give the name two numbers in the table. -/
theorem labelsResolveToRetainedLineNumbers : Obligations.LabelsResolveToRetainedLineNumbers := by
  intro source lines labels hpass
  obtain ⟨hlength, hlines⟩ := List.forall₂_iff_get.1 (firstPass_lines hpass)
  have hlookup := lookup_labels_iff hpass
  refine ⟨hlength, fun k x hx => ?_, hlookup, fun j k x y name hx hy hxname hyname => ?_⟩
  · obtain ⟨hk, rfl⟩ := List.getElem?_eq_some_iff.1 hx
    obtain ⟨mnemonic, operands, hline⟩ := hlines k hk (hlength ▸ hk)
    exact ⟨_, mnemonic, operands, List.getElem?_eq_getElem (hlength ▸ hk), hline⟩
  · exact Option.some.inj (((hlookup name j).2 ⟨x, hx, hxname⟩).symm.trans
      ((hlookup name k).2 ⟨y, hy, hyname⟩))

/-- R116: the second pass emits the word of a line and goes on. -/
theorem secondPass_cons_ok {labels : LabelTable} {x : AsmLine} {xs : List AsmLine}
    {ws : List Word} (hpass : secondPass labels (x :: xs) = .ok ws) :
    ∃ w ws', secondPass labels xs = .ok ws' ∧ ws = w :: ws' := by
  unfold secondPass at hpass
  split at hpass
  · cases hpass
  · split at hpass
    · cases hpass
    · split at hpass
      · cases hpass
      · cases hpass
        exact ⟨_, _, ‹_›, rfl⟩

/-- R116: one word for each line of the first pass. -/
theorem length_secondPass {labels : LabelTable} {xs : List AsmLine} {ws : List Word}
    (hpass : secondPass labels xs = .ok ws) : ws.length = xs.length := by
  induction xs generalizing ws with
  | nil =>
    cases hpass
    rfl
  | cons x xs ih =>
    obtain ⟨w, ws', hrest, rfl⟩ := secondPass_cons_ok hpass
    rw [List.length_cons, List.length_cons, ih hrest]

/-- A text assembles by its two passes. -/
theorem assemble_ok {source : List Char} {ws : List Word} (hassemble : assemble source = .ok ws) :
    ∃ xs labels, firstPass 1 0 [] (splitLines source) = .ok (xs, labels) ∧
      secondPass labels xs = .ok ws := by
  unfold assemble at hassemble
  split at hassemble
  · cases hassemble
  · exact ⟨_, _, ‹_›, hassemble⟩

/-- Settles O52: the two passes each keep the number of retained lines. -/
theorem assemblerEmitsOneWordPerRetainedLine :
    Obligations.AssemblerEmitsOneWordPerRetainedLine := by
  intro source ws hassemble
  obtain ⟨xs, labels, hfirst, hsecond⟩ := assemble_ok hassemble
  rw [length_secondPass hsecond, (firstPass_lines hfirst).length_eq, retainedLines_eq]

/-- Settles O54: the range checks of the three kinds of entry, and the fields of what they emit. -/
theorem emittedWordHoldsOpcodeAndOperand : Obligations.EmittedWordHoldsOpcodeAndOperand := by
  intro line opcode data operand hopcode hdata
  refine ⟨fun hfits => ⟨⟨_, if_pos hfits, unpackFields_packFields hopcode hfits⟩,
      ⟨_, if_pos hfits, unpackFields_packFields hopcode hdata⟩⟩,
    fun hlarge => ⟨if_neg (Nat.not_le_of_gt hlarge), if_neg (Nat.not_le_of_gt hlarge)⟩,
    fun hfits => ⟨_, if_pos hfits, ?_⟩, fun hlarge => if_neg (Nat.not_le_of_gt hlarge)⟩
  rw [BitVec.toNat_ofNat]
  exact Nat.mod_eq_of_lt (Nat.lt_succ_of_le hfits)

end Sys2Proof.Machine
end
